-- ==== Sys2Proof/Word.lean ====
section
/-! DEFINITION. The widths of the machine's values (spec/10_state.md R20, R22, R23; spec/30_encoding.md R74). -/

namespace Sys2Proof

/-- A byte: a memory cell, a general register, a timer (R20, R26 to R28). -/
abbrev Byte := BitVec 8

/-- A 16-bit value: `I`, `pc`, a stack cell, an instruction word (R22 to R24, R70). -/
abbrev Word := BitVec 16

/-- A 4-bit field: a register index, a key number, a sprite height (R74, R224). -/
abbrev Nibble := BitVec 4

/-- The 12-bit address immediate `nnn` (R74, R76). -/
abbrev Addr := BitVec 12

end Sys2Proof
end

