-- ==== Sys2Proof/Config.lean ====
section
/-! DEFINITION. The constants of this hardware (spec/00_scope.md R5), its parameters at the spec's defaults
(R6) and the free values (R224, R227). -/

namespace Sys2Proof

/-- Bytes of memory, addresses 0x000 to 0xFFF (R5 `MEM_SIZE`). -/
abbrev Config.memSize : Nat := 4096

/-- Where programs are loaded and where `pc` starts (R5 `PROGRAM_START`). -/
abbrev Config.programStart : Nat := 0x200

/-- The longest image `Load` accepts (R5 `MAX_PROGRAM`). -/
abbrev Config.maxProgram : Nat := 3584

/-- Pixels in a row (R5 `DISPLAY_WIDTH`). -/
abbrev Config.displayWidth : Nat := 64

/-- Rows of pixels (R5 `DISPLAY_HEIGHT`). -/
abbrev Config.displayHeight : Nat := 32

/-- Bytes in one font glyph (R5 `GLYPH_BYTES`). -/
abbrev Config.glyphBytes : Nat := 5

/-- Where the font lies (R6 `FONT_BASE`, decision D5). DESIGN CHOICE (log 6), unsafe: the spec's default 0x000,
which its source gives only as an example. -/
def Config.fontBase : Nat := 0x000

/-- The 80 font bytes (R6 `FONT_DATA`, table of R36, decision D6). PRESUMED (log 7), unsafe: the spec's default,
which it takes from general knowledge of CHIP-8. -/
def Config.fontData : List Byte :=
  [0xF0, 0x90, 0x90, 0x90, 0xF0, 0x20, 0x60, 0x20, 0x20, 0x70,
   0xF0, 0x10, 0xF0, 0x80, 0xF0, 0xF0, 0x10, 0xF0, 0x10, 0xF0] ++
  [0x90, 0x90, 0xF0, 0x10, 0x10, 0xF0, 0x80, 0xF0, 0x10, 0xF0,
   0xF0, 0x80, 0xF0, 0x90, 0xF0, 0xF0, 0x10, 0x20, 0x40, 0x40] ++
  [0xF0, 0x90, 0xF0, 0x90, 0xF0, 0xF0, 0x90, 0xF0, 0x10, 0xF0,
   0xF0, 0x90, 0xF0, 0x90, 0x90, 0xE0, 0x90, 0xE0, 0x90, 0xE0] ++
  [0xF0, 0x80, 0x80, 0x80, 0xF0, 0xE0, 0x90, 0x90, 0x90, 0xE0,
   0xF0, 0x80, 0xF0, 0x80, 0xF0, 0xF0, 0x80, 0xF0, 0x80, 0x80]

/-- FREE VALUE (log 1): the byte that the `n`-th execution of `Cxkk` draws (R227, decision D18).
It has no body, so nothing constrains it. -/
opaque Config.randByte : Nat → Byte

/-- FREE VALUE (log 2): the answer to the `n`-th question `IsPressed(k)` (R224, decision D30).
It has no body, so nothing constrains it. -/
opaque Config.keyLevel : Nat → Nibble → Bool

end Sys2Proof
end

