-- ==== Sys2Proof/Syntax.lean ====
section
/-! DEFINITION. The 34 instructions of spec/30_encoding.md R77, one constructor a row of spec/opcode_table.json in
its order, and the reasons for which a decoder rejects bytes (R78). The operand types carry the field widths of R74. -/

namespace Sys2Proof

/-- One constructor a row of R77; `x`, `y`, `n`, `kk`, `nnn` are the fields of R74. -/
inductive Instr where
  /-- `00E0` -/
  | cls
  /-- `00EE` -/
  | ret
  /-- `1nnn` -/
  | jp (nnn : Addr)
  /-- `2nnn` -/
  | call (nnn : Addr)
  /-- `3xkk` -/
  | seImm (x : Nibble) (kk : Byte)
  /-- `4xkk` -/
  | sneImm (x : Nibble) (kk : Byte)
  /-- `5xy0` -/
  | seReg (x y : Nibble)
  /-- `6xkk` -/
  | ldImm (x : Nibble) (kk : Byte)
  /-- `7xkk` -/
  | addImm (x : Nibble) (kk : Byte)
  /-- `8xy0` -/
  | ldReg (x y : Nibble)
  /-- `8xy1` -/
  | or (x y : Nibble)
  /-- `8xy2` -/
  | and (x y : Nibble)
  /-- `8xy3` -/
  | xor (x y : Nibble)
  /-- `8xy4` -/
  | addReg (x y : Nibble)
  /-- `8xy5` -/
  | sub (x y : Nibble)
  /-- `8xy6`; `y` is decoded and ignored (R75). -/
  | shr (x y : Nibble)
  /-- `8xy7` -/
  | subn (x y : Nibble)
  /-- `8xyE`; `y` is decoded and ignored (R75). -/
  | shl (x y : Nibble)
  /-- `9xy0` -/
  | sneReg (x y : Nibble)
  /-- `Annn` -/
  | ldI (nnn : Addr)
  /-- `Bnnn` -/
  | jpV0 (nnn : Addr)
  /-- `Cxkk` -/
  | rnd (x : Nibble) (kk : Byte)
  /-- `Dxyn` -/
  | drw (x y n : Nibble)
  /-- `Ex9E` -/
  | skp (x : Nibble)
  /-- `ExA1` -/
  | sknp (x : Nibble)
  /-- `Fx07` -/
  | ldVxDt (x : Nibble)
  /-- `Fx0A` -/
  | ldVxK (x : Nibble)
  /-- `Fx15` -/
  | ldDtVx (x : Nibble)
  /-- `Fx18` -/
  | ldStVx (x : Nibble)
  /-- `Fx1E` -/
  | addI (x : Nibble)
  /-- `Fx29` -/
  | ldF (x : Nibble)
  /-- `Fx33` -/
  | ldB (x : Nibble)
  /-- `Fx55` -/
  | stRegs (x : Nibble)
  /-- `Fx65` -/
  | ldRegs (x : Nibble)
  deriving DecidableEq, Repr

/-- Why bytes are no instruction. -/
inductive Reject where
  /-- The word matches none of the 34 patterns (R78, R213). -/
  | unknownOpcode (w : Word)
  /-- Fewer than the two bytes every instruction has (R70). The machine's fetch never meets this (R72). -/
  | truncated
  deriving DecidableEq, Repr

end Sys2Proof
end

