-- ==== Sys2Proof/WellFormed.lean ====
section
/-! DEFINITION. What makes a term of the syntax well formed. An instruction's operand types carry the field widths
of spec/30_encoding.md R74 exactly, and every value of every field is legal (R20, R75, R76), so an `Instr` has
nothing left to check: `Instr.wf` is true of each. A program image has one check (spec/70_reset_and_hazards.md R252). -/

namespace Sys2Proof

/-- Every operand value of every instruction is legal: register fields are used as they stand (R20), immediates too
(R76), and the `y` of `8xy6` and `8xyE` is free (R75). -/
def Instr.wf (_ : Instr) : Bool := true

/-- An image that `Load` accepts: at most 3584 bytes (R252, R214). -/
def Image.wf (image : List Byte) : Bool := image.length ≤ Config.maxProgram

end Sys2Proof
end

