-- ==== Sys2Proof/Machine/State.lean ====
section
/-! DEFINITION. The machine's state as plain data (spec/10_state.md), the reasons a step can stop, and the state
after reset (R35). -/

namespace Sys2Proof.Machine

/-- The failure kinds that an instruction cycle raises (spec/60_exceptions.md R210 codes 1 to 3). -/
inductive FailureKind where
  /-- `2nnn` with `SP = 16` (R211). -/
  | stackOverflow
  /-- `00EE` with `SP = 0` (R212). -/
  | stackUnderflow
  /-- A word that matches no pattern (R213). -/
  | unknownOpcode
  deriving DecidableEq, Repr

/-- The error record `err` (R33): the kind, and for the three kinds of a cycle the failing instruction's unmasked
address `pc0` and its word `w`; the kind only for `ProgramTooLarge` (R210, decision D13). -/
inductive ErrRecord where
  | inCycle (kind : FailureKind) (pc0 w : Word)
  | programTooLarge
  deriving DecidableEq, Repr

/-- `status` (R31). `wait_x` is carried inside WAIT_KEY, as R32 allows, and `err` inside FAILED, the only value of
`status` in which it means anything (R33). DEDUCED (log 5), safe. -/
inductive Status where
  /-- `RUNNING` -/
  | running
  /-- `WAIT_KEY`, with `wait_x`, the register the key number goes to (R32). -/
  | waitKey (waitX : Nibble)
  /-- `FAILED`, with `err` (R33). -/
  | failed (err : ErrRecord)
  deriving DecidableEq, Repr

/-- The five atomic actions through which state changes (R232). -/
inductive AtomicAction where
  /-- One fetch, decode and execute cycle, or a hold (R71). -/
  | step
  /-- One pulse of the 60 Hz timer clock (R222). -/
  | tick
  /-- The host delivers a press of key `k` (R225); the type keeps the host's duty `0 <= k <= 15` (log 11). -/
  | keyEvent (k : Nibble)
  /-- Reset (R250). -/
  | reset
  /-- The host loads a program image at 0x200 (R252). -/
  | load (image : List Byte)
  deriving DecidableEq, Repr

/-- Memory as (address, byte) pairs in the canonical form of `Memory.wf`: addresses strictly rising, no entry equal
to what its address reads as when unlisted. -/
abbrev Memory := List Host.Cell

/-- The framebuffer, "a fixed boolean (or single-bit) array" of 2048 pixels, as 32 rows of 64: pixel (x, y) is bit `x`
of row `y` (R29). -/
abbrev Framebuffer := Vector (BitVec 64) 32

/-- Every pixel off. -/
def Framebuffer.dark : Framebuffer := Vector.replicate 32 0#64

/-- Everything the spec gives the machine, then the model's own four fields. -/
structure State where
  /-- `V[0]` to `V[15]`; `V[15]` is `VF` (R20, R21). -/
  v : Vector Byte 16
  /-- The index register (R22). -/
  i : Word
  /-- The program counter (R23). -/
  pc : Word
  /-- The return-address stack's 16 cells (R24). -/
  stack : Vector Word 16
  /-- `SP`, the number of return addresses on the stack, 0 to 16 (R25). -/
  sp : Fin 17
  /-- The delay timer (R26). -/
  dt : Byte
  /-- The sound timer (R27). -/
  st : Byte
  /-- The 4096 bytes of memory (R28). -/
  mem : Memory
  /-- The 2048 pixels (R29). -/
  fb : Framebuffer
  /-- `status`, with `wait_x` and `err` inside (R31 to R33). -/
  status : Status
  /-- The MODEL's own: how many random bytes have been drawn; selects the free value `Config.randByte` (log 1). -/
  randDraws : Nat
  /-- The MODEL's own: how many key levels have been asked; selects the free value `Config.keyLevel` (log 2). -/
  keyDraws : Nat
  /-- The MODEL's own: the host's schedule, the actions to come before the stepper runs on its own (R232, log 3). -/
  pending : List AtomicAction
  /-- The MODEL's own: whether the boot order still admits a `Load` (R253, R233, log 8). -/
  loadable : Bool
  deriving DecidableEq, Repr

/-- Why a machine is reported as stopped. -/
inductive Fault where
  /-- The run has failed: "A model should treat a `FAILED` state as a fault" (R217). Raised by `driverStep` (the
  driver's check after each step, R233) and by nothing else: `exec` and `step` take the failure as a next state whose
  `status` is FAILED (R215). Safe: it stops where the spec has only holds until `Reset` (log 9). -/
  | failed (err : ErrRecord)
  deriving DecidableEq, Repr

/-- Why the model gives no next state. -/
inductive Refusal where
  /-- An instruction without a meaning in `exec`. Raised by nobody: every instruction has its meaning. Safe. -/
  | notModelled (mnemonic : String)
  /-- A `Load` after the first `Step` or a second `Load`: "outside what the source describes and a model gives it no
  move" (R253, R233). Raised by `State.load` for the host action, never by an instruction. Safe (log 8). -/
  | loadOutOfOrder
  deriving DecidableEq, Repr

/-- The state right after `Reset` (R35): zero everywhere but `pc`, the font bytes (which unlisted memory reads as)
and `status`. The last four values are the model's own (log 4). -/
def State.reset : State where
  v := Vector.replicate 16 0x00#8
  i := 0x0000#16
  pc := 0x0200#16
  stack := Vector.replicate 16 0x0000#16
  sp := 0
  dt := 0x00#8
  st := 0x00#8
  mem := []
  fb := Framebuffer.dark
  status := .running
  randDraws := 0
  keyDraws := 0
  pending := []
  loadable := true

end Sys2Proof.Machine
end

