-- ==== Sys2Proof/Machine/Ops.lean ====
section
/-! DEFINITION. The named operations over memory, registers, program counter and stack, and the failure entry
(spec/20_memory.md, spec/10_state.md, spec/60_exceptions.md R215). -/

namespace Sys2Proof.Machine

/-- `VF`, register 15 (R21). -/
abbrev vf : Nibble := 0xF#4

/-- What an address of memory reads as when nothing is listed for it: its content at reset, a font byte or 0x00 (R35). -/
def Memory.resetByte (a : Nat) : Byte :=
  if Config.fontBase ≤ a ∧ a < Config.fontBase + Config.fontData.length then
    Config.fontData.getD (a - Config.fontBase) 0x00#8
  else 0x00#8

/-- The byte at address `a` (R52). -/
def Memory.read : Memory → Nat → Byte
  | [], a => Memory.resetByte a
  | (k, b) :: rest, a => if k = a then b else Memory.read rest a

/-- Put `b` at `a` in front of `rest`, or leave it unlisted where it is what `a` reads as anyway. -/
def Memory.place (a : Nat) (b : Byte) (rest : Memory) : Memory :=
  if b = Memory.resetByte a then rest else (a, b) :: rest

/-- Store `b` at address `a`, keeping the canonical form (R52). -/
def Memory.write : Memory → Nat → Byte → Memory
  | [], a, b => Memory.place a b []
  | (k, c) :: rest, a, b =>
    if a < k then Memory.place a b ((k, c) :: rest)
    else if a = k then Memory.place a b rest
    else (k, c) :: Memory.write rest a b

/-- Every listed address is at least `lo` and below 4096, they rise strictly, and no entry is what its address reads
as when unlisted. -/
def Memory.wfFrom (lo : Nat) : Memory → Bool
  | [] => true
  | (k, b) :: rest =>
    lo ≤ k && k < Config.memSize && b != Memory.resetByte k && Memory.wfFrom (k + 1) rest

/-- The canonical form of a memory of 4096 bytes. -/
def Memory.wf (m : Memory) : Bool := Memory.wfFrom 0 m

/-- The effective address of a byte access: masked to 12 bits after the offset is added (R51). -/
def effAddr (a : Nat) : Nat := a % Config.memSize

/-- `MemRead(a, 1)` (R52). -/
def State.readByte (s : State) (a : Nat) : Byte := Memory.read s.mem (effAddr a)

/-- `MemWrite(a, 1, b)` (R52). -/
def State.writeByte (s : State) (a : Nat) (b : Byte) : State :=
  { s with mem := Memory.write s.mem (effAddr a) b }

/-- The `n` bytes at `a`, `a + 1`, ..., each address masked (R54). -/
def State.readBytes (s : State) (a n : Nat) : List Byte :=
  (List.range n).map fun k => s.readByte (a + k)

/-- Store bytes at `a`, `a + 1`, ... in ascending order, each address masked (R54). -/
def State.writeBytes : State → Nat → List Byte → State
  | s, _, [] => s
  | s, a, b :: bs => State.writeBytes (s.writeByte a b) (a + 1) bs

/-- `MemRead(pc, 2)`, the big-endian instruction fetch (R53, R72). -/
def State.fetch (s : State) : Word :=
  wordOfBytes (s.readByte s.pc.toNat) (s.readByte (s.pc.toNat + 1))

/-- `V[x]` (R20). -/
def State.readV (s : State) (x : Nibble) : Byte := s.v[x.toNat]'x.isLt

/-- `V[x] <- b` (R20). -/
def State.writeV (s : State) (x : Nibble) (b : Byte) : State :=
  { s with v := s.v.set x.toNat b x.isLt }

/-- `V[0]` to `V[n - 1]`. -/
def State.readRegs (s : State) (n : Nat) : List Byte :=
  (List.range n).map fun k => s.readV (BitVec.ofNat 4 k)

/-- Write bytes to `V[k]`, `V[k + 1]`, ... in ascending order. -/
def State.writeRegs : State → Nat → List Byte → State
  | s, _, [] => s
  | s, k, b :: bs => State.writeRegs (s.writeV (BitVec.ofNat 4 k) b) (k + 1) bs

/-- `I <- a`, all 16 bits kept (R22). -/
def State.setI (s : State) (a : Word) : State := { s with i := a }

/-- `pc <- target`, all 16 bits kept (R23). -/
def State.jump (s : State) (target : Word) : State := { s with pc := target }

/-- The fetch advance, modulo 65536 (R73). -/
def State.advance (s : State) : State := s.jump (s.pc + 2#16)

/-- `Skip()` when the condition holds: a further 2, modulo 65536 (R128). -/
def State.skipIf (s : State) (c : Bool) : State := if c then s.jump (s.pc + 2#16) else s

/-- Push `a` on a stack that is not full: write `stack[SP]`, then `SP + 1` (R25). -/
def State.push (s : State) (a : Word) (h : s.sp.val < 16) : State :=
  { s with stack := s.stack.set s.sp.val a h, sp := ⟨s.sp.val + 1, by omega⟩ }

/-- The most recent return address, `stack[SP - 1]`, of a stack that is not empty (R25). -/
def State.top (s : State) (h : 0 < s.sp.val) : Word := s.stack[s.sp.val - 1]'(by omega)

/-- `SP - 1`; the cell keeps its value (R25, decision D11). -/
def State.drop (s : State) : State := { s with sp := ⟨s.sp.val - 1, by omega⟩ }

/-- FAILURE ENTRY, `raise K(pc0, w)` (R215), on the state before the cycle: nothing changes, `pc` included, but
`status` and `err`. There is no handler and no return from a failure (R216); only `Reset` leaves it (R217). -/
def State.raise (s : State) (kind : FailureKind) (w : Word) : State :=
  { s with status := .failed (.inCycle kind s.pc w) }

end Sys2Proof.Machine
end

