-- ==== Sys2Proof/Machine/Flags.lean ====
section
/-! DEFINITION. The arithmetic with a flag and the flag's values (spec/42_alu.md R140, R141; spec/10_state.md R21).
Each result is computed exactly on the integers and narrowed at the end. -/

namespace Sys2Proof.Machine

/-- A flag as a byte, 0x01 or 0x00 (R21). -/
def flagByte (c : Bool) : Byte := if c then 0x01#8 else 0x00#8

/-- `(a + b) mod 256` (R140). -/
def addByte (a b : Byte) : Byte := BitVec.ofNat 8 (a.toNat + b.toNat)

/-- Carry: `a + b >= 256` (R140, R148). -/
def carryFlag (a b : Byte) : Byte := flagByte (a.toNat + b.toNat ≥ 256)

/-- `(a - b) mod 256` (R140). -/
def subByte (a b : Byte) : Byte := BitVec.ofInt 8 ((a.toNat : Int) - b.toNat)

/-- No borrow: `a >= b` (R140, R150, R152). -/
def noBorrowFlag (a b : Byte) : Byte := flagByte (a.toNat ≥ b.toNat)

/-- `a div 2`, a logical shift (R140, R151). -/
def shrByte (a : Byte) : Byte := BitVec.ofNat 8 (a.toNat / 2)

/-- The bit a right shift loses, `a[0]` (R151). -/
def shrFlag (a : Byte) : Byte := flagByte (a.getLsbD 0)

/-- `(2 * a) mod 256` (R140, R153). -/
def shlByte (a : Byte) : Byte := BitVec.ofNat 8 (2 * a.toNat)

/-- The bit a left shift loses, `a[7]` (R153). -/
def shlFlag (a : Byte) : Byte := flagByte (a.getLsbD 7)

/-- Write a result to `V[x]`, then a flag to `VF`, last, so that with `x = 0xF` the flag stays (R141, decision D9). -/
def State.writeResult (s : State) (x : Nibble) (r flag : Byte) : State := (s.writeV x r).writeV vf flag

end Sys2Proof.Machine
end

