-- ==== Sys2Proof/Machine/Operands.lean ====
section
/-! DEFINITION. The operand forms (spec/30_encoding.md R76, spec/43_index_memory.md R172, R173,
spec/44_keys_timers.md R190). -/

namespace Sys2Proof.Machine

/-- `zext_16(nnn)` (R76). -/
def zext16Addr (nnn : Addr) : Word := nnn.zeroExtend 16

/-- `zext_16(b)` (R127, R171). -/
def zext16Byte (b : Byte) : Word := b.zeroExtend 16

/-- The digit or key number in a register: its low nibble (R172, R190, R191; decisions D7, D8, log 10). -/
def lowNibble (b : Byte) : Nibble := b.extractLsb' 0 4

/-- The address of the font glyph for digit `d`: `FONT_BASE + 5 * d` (R172). -/
def glyphAddr (d : Nibble) : Word := BitVec.ofNat 16 (Config.fontBase + Config.glyphBytes * d.toNat)

/-- Hundreds, tens and ones of a byte, one byte each (R173). -/
def decimalDigits (b : Byte) : List Byte :=
  [BitVec.ofNat 8 (b.toNat / 100), BitVec.ofNat 8 (b.toNat / 10 % 10), BitVec.ofNat 8 (b.toNat % 10)]

/-- How many registers `Fx55` and `Fx65` move: `x + 1` (R174, R175). -/
def regCount (x : Nibble) : Nat := x.toNat + 1

/-- The unmasked address in `I`, the one data addressing mode (R176). -/
def State.dataAddr (s : State) : Nat := s.i.toNat

/-- The answer of `IsPressed(k)` to the next question: a free value (R224, log 2). -/
def State.isPressed (s : State) (k : Nibble) : Bool := Config.keyLevel s.keyDraws k

/-- One question has been asked (log 2). -/
def State.countKey (s : State) : State := { s with keyDraws := s.keyDraws + 1 }

/-- The answer of `Rand()` to the next draw: a free value (R227, log 1). -/
def State.rand (s : State) : Byte := Config.randByte s.randDraws

/-- One byte has been drawn (log 1). -/
def State.countRand (s : State) : State := { s with randDraws := s.randDraws + 1 }

end Sys2Proof.Machine
end

