-- ==== Sys2Proof/Machine/Display.lean ====
section
/-! DEFINITION. The Display component and its two instructions (spec/40_display.md). -/

namespace Sys2Proof.Machine

/-- `fb[x, y]` (R29). -/
def fbPixel (fb : Framebuffer) (x y : Nat) : Bool := if h : y < 32 then fb[y].getLsbD x else false

/-- `fb[x, y] <- fb[x, y] ^ 1` (R102). -/
def fbFlip (fb : Framebuffer) (x y : Nat) : Framebuffer :=
  if h : y < 32 then fb.set y (fb[y] ^^^ BitVec.twoPow 64 x) h else fb

/-- `Clear()` (R101). -/
def State.clearDisplay (s : State) : State := { s with fb := Framebuffer.dark }

/-- `PixelAt(x, y)`, the host's read-only query, inside the grid by its types (R103, R228). -/
def State.pixelAt (s : State) (x : Fin 64) (y : Fin 32) : Bool := fbPixel s.fb x.val y.val

/-- A framebuffer being drawn into and the collision seen so far. -/
abbrev Drawing := Framebuffer × Bool

/-- One bit of a sprite at pixel (px, py): a 1 flips the pixel and collides if it was lit; a 0 leaves it alone (R102). -/
def drawBit (d : Drawing) (px py : Nat) (bit : Bool) : Drawing :=
  if bit then (fbFlip d.1 px py, d.2 || fbPixel d.1 px py) else d

/-- One row byte of a sprite at display row `py`: columns 0 to 7, bit 7 leftmost, each column wrapped (R102). -/
def drawRow (d : Drawing) (x0 py : Nat) (b : Byte) : Drawing :=
  (List.range 8).foldl (fun d c => drawBit d ((x0 + c) % Config.displayWidth) py (b.getLsbD (7 - c))) d

/-- The rows of a sprite from row coordinate `y` on, each row wrapped (R102). -/
def drawRows (d : Drawing) (x0 y : Nat) : List Byte → Drawing
  | [] => d
  | b :: bs => drawRows (drawRow d x0 (y % Config.displayHeight) b) x0 (y + 1) bs

/-- `DrawSprite(x0, y0, rows)`: the new framebuffer and the collision (R102). -/
def drawSprite (fb : Framebuffer) (x0 y0 : Byte) (rows : List Byte) : Framebuffer × Bool :=
  drawRows (fb, false) x0.toNat y0.toNat rows

/-- Take a drawing over: its framebuffer, and its collision as `VF` (R106). -/
def State.takeDrawing (s : State) (d : Drawing) : State := { s with fb := d.1 }.writeV vf (flagByte d.2)

/-- `00E0` (R105). -/
def execCls (s : State) : Host.Outcome State Fault Refusal := .next s.advance.clearDisplay

/-- `Dxyn` (R106): coordinates and rows are read before `VF` is written. -/
def execDrw (x y n : Nibble) (s : State) : Host.Outcome State Fault Refusal :=
  .next (s.advance.takeDrawing
    (drawSprite s.fb (s.readV x) (s.readV y) (s.readBytes s.dataAddr n.toNat)))

end Sys2Proof.Machine
end

