-- ==== Sys2Proof/Machine/Flow.lean ====
section
/-! DEFINITION. Control transfer (spec/41_flow.md). A meaning takes the state before the cycle; `advance` puts `pc` at
the instruction's address plus 2 first (spec/30_encoding.md R73). -/

namespace Sys2Proof.Machine

/-- `00EE` (R120): the check precedes every write (R212, decision D32). -/
def execRet (s : State) : Host.Outcome State Fault Refusal :=
  if h : 0 < s.sp.val then .next (s.drop.jump (s.top h))
  else .next (s.raise .stackUnderflow (encodeWord .ret))

/-- `1nnn` (R121). -/
def execJp (nnn : Addr) (s : State) : Host.Outcome State Fault Refusal :=
  .next (s.jump (zext16Addr nnn))

/-- `2nnn` (R122): the check precedes every write (R211, decision D32); the pushed value is the advanced `pc`. -/
def execCall (nnn : Addr) (s : State) : Host.Outcome State Fault Refusal :=
  if h : s.sp.val < 16 then .next ((s.push s.advance.pc h).jump (zext16Addr nnn))
  else .next (s.raise .stackOverflow (encodeWord (.call nnn)))

/-- `3xkk` (R123). -/
def execSeImm (x : Nibble) (kk : Byte) (s : State) : Host.Outcome State Fault Refusal :=
  .next (s.advance.skipIf (s.readV x == kk))

/-- `4xkk` (R124). -/
def execSneImm (x : Nibble) (kk : Byte) (s : State) : Host.Outcome State Fault Refusal :=
  .next (s.advance.skipIf (s.readV x != kk))

/-- `5xy0` (R125). -/
def execSeReg (x y : Nibble) (s : State) : Host.Outcome State Fault Refusal :=
  .next (s.advance.skipIf (s.readV x == s.readV y))

/-- `9xy0` (R126). -/
def execSneReg (x y : Nibble) (s : State) : Host.Outcome State Fault Refusal :=
  .next (s.advance.skipIf (s.readV x != s.readV y))

/-- `Bnnn` (R127): always `V0`, the 16-bit sum kept. -/
def execJpV0 (nnn : Addr) (s : State) : Host.Outcome State Fault Refusal :=
  .next (s.jump (zext16Addr nnn + zext16Byte (s.readV 0#4)))

end Sys2Proof.Machine
end

