-- ==== Sys2Proof/Machine/Index.lean ====
section
/-! DEFINITION. Index register and memory instructions (spec/43_index_memory.md). None of them changes `I` by an
access (R176). -/

namespace Sys2Proof.Machine

/-- `Annn` (R170). -/
def execLdI (nnn : Addr) (s : State) : Host.Outcome State Fault Refusal :=
  .next (s.advance.setI (zext16Addr nnn))

/-- `Fx1E` (R171): modulo 65536, no flag. -/
def execAddI (x : Nibble) (s : State) : Host.Outcome State Fault Refusal :=
  .next (s.advance.setI (s.i + zext16Byte (s.readV x)))

/-- `Fx29` (R172): the low nibble of `V[x]` is the digit. -/
def execLdF (x : Nibble) (s : State) : Host.Outcome State Fault Refusal :=
  .next (s.advance.setI (glyphAddr (lowNibble (s.readV x))))

/-- `Fx33` (R173). -/
def execLdB (x : Nibble) (s : State) : Host.Outcome State Fault Refusal :=
  .next (s.advance.writeBytes s.dataAddr (decimalDigits (s.readV x)))

/-- `Fx55` (R174). -/
def execStRegs (x : Nibble) (s : State) : Host.Outcome State Fault Refusal :=
  .next (s.advance.writeBytes s.dataAddr (s.readRegs (regCount x)))

/-- `Fx65` (R175). -/
def execLdRegs (x : Nibble) (s : State) : Host.Outcome State Fault Refusal :=
  .next (s.advance.writeRegs 0 (s.readBytes s.dataAddr (regCount x)))

end Sys2Proof.Machine
end

