-- ==== Sys2Proof/Machine/KeysTimers.lean ====
section
/-! DEFINITION. Keyboard and timer instructions (spec/44_keys_timers.md). -/

namespace Sys2Proof.Machine

/-- `Ex9E` (R190): one key level, a free value (log 2), is sampled. -/
def execSkp (x : Nibble) (s : State) : Host.Outcome State Fault Refusal :=
  .next (s.advance.countKey.skipIf (s.isPressed (lowNibble (s.readV x))))

/-- `ExA1` (R191): one key level, a free value (log 2), is sampled. -/
def execSknp (x : Nibble) (s : State) : Host.Outcome State Fault Refusal :=
  .next (s.advance.countKey.skipIf (!s.isPressed (lowNibble (s.readV x))))

/-- `Fx07` (R192). -/
def execLdVxDt (x : Nibble) (s : State) : Host.Outcome State Fault Refusal :=
  .next (s.advance.writeV x s.dt)

/-- `Fx0A` (R193), the suspend: `pc` is already past it; `KeyEvent` completes it. -/
def execLdVxK (x : Nibble) (s : State) : Host.Outcome State Fault Refusal :=
  .next { s.advance with status := .waitKey x }

/-- `Fx15` (R194). -/
def execLdDtVx (x : Nibble) (s : State) : Host.Outcome State Fault Refusal :=
  .next { s.advance with dt := s.readV x }

/-- `Fx18` (R195). -/
def execLdStVx (x : Nibble) (s : State) : Host.Outcome State Fault Refusal :=
  .next { s.advance with st := s.readV x }

end Sys2Proof.Machine
end

