-- ==== Sys2Proof/Machine/Events.lean ====
section
/-! DEFINITION. The host's side (spec/60_exceptions.md, spec/70_reset_and_hazards.md): the actions `Tick`, `KeyEvent`,
`Reset` and `Load`, and the outputs the host reads. -/

namespace Sys2Proof.Machine

/-- A timer's decrement: "if > 0, decrement it"; at 0 it stays (R222). -/
def countDown (b : Byte) : Byte := if 0 < b.toNat then b - 1#8 else b

/-- `Tick()` (R222): both timers, in every `status` (decision D17). -/
def State.tick (s : State) : State := { s with dt := countDown s.dt, st := countDown s.st }

/-- `KeyEvent(k)` (R225): completes a waiting `Fx0A`; otherwise the event is dropped (decision D16). -/
def State.keyEvent (s : State) (k : Nibble) : State :=
  match s.status with
  | .waitKey x => { s.writeV x (k.zeroExtend 8) with status := .running }
  | .running => s
  | .failed _ => s

/-- `Reset` (R250): every piece of the spec's state at its value of R35. The model's counters of free values and the
host's schedule go on: a draw after `Reset` is a fresh one (log 1, log 2, log 3). -/
def State.doReset (s : State) : State :=
  { State.reset with randDraws := s.randDraws, keyDraws := s.keyDraws, pending := s.pending }

/-- `Load(image)` (R252), once, after `Reset` and before the first `Step` (R253); at any other time the spec gives no
move, and the model refuses it (log 8). -/
def State.load (s : State) (image : List Byte) : Host.Outcome State Fault Refusal :=
  if s.loadable then
    if Image.wf image then .next { s.writeBytes Config.programStart image with loadable := false }
    else .next { s with status := .failed .programTooLarge, loadable := false }
  else .refused .loadOutOfOrder

/-- The tone output, `ST > 0` at every instant (R30, R223). -/
def State.tone (s : State) : Bool := 0 < s.st.toNat

/-- The error record the host reads (R33, R233): there is one exactly in FAILED. -/
def State.err? (s : State) : Option ErrRecord :=
  match s.status with
  | .failed e => some e
  | .running => none
  | .waitKey _ => none

/-- The number R210 gives a failure kind for its tables. -/
def ErrRecord.code : ErrRecord → Nat
  | .inCycle .stackOverflow _ _ => 1
  | .inCycle .stackUnderflow _ _ => 2
  | .inCycle .unknownOpcode _ _ => 3
  | .programTooLarge => 4

end Sys2Proof.Machine
end

