-- ==== Sys2Proof/Machine/Cycle.lean ====
section
/-! DEFINITION. One `Step` of the spec (spec/30_encoding.md R71), and whose move it is (spec/60_exceptions.md R232). -/

namespace Sys2Proof.Machine

/-- From the first `Step` on the boot order admits no `Load` (R253; the model's own field, log 8). -/
def State.closeLoad (s : State) : State := { s with loadable := false }

/-- `Step()` (R71): in RUNNING fetch, decode and execute; in WAIT_KEY and FAILED a hold (R226, R217). The advance of
`pc` stands in each meaning, which a raise does not apply (R215). -/
def State.cycle (s : State) : Host.Outcome State Fault Refusal :=
  match s.status with
  | .running =>
    match decodeWord s.fetch with
    | .ok i => exec i s.closeLoad
    | .error _ => .next (s.closeLoad.raise .unknownOpcode s.fetch)
  | .waitKey _ => .next s
  | .failed _ => .next s

/-- One of the five atomic actions (R232). -/
def State.act (s : State) : AtomicAction → Host.Outcome State Fault Refusal
  | .step => s.cycle
  | .tick => .next s.tick
  | .keyEvent k => .next (s.keyEvent k)
  | .reset => .next s.doReset
  | .load image => s.load image

/-- Whose move it is (R232, log 3): the next action of the host's schedule, which is taken off it; with nothing
scheduled, the stepper's. -/
def State.move (s : State) : Host.Outcome State Fault Refusal :=
  match s.pending with
  | [] => s.cycle
  | a :: rest => { s with pending := rest }.act a

/-- `s` with the two bytes of `w` where the fetch reads (R53), ready for the stepper: RUNNING, nothing scheduled. -/
def State.placeWord (s : State) (w : Word) : State :=
  { s.writeBytes s.pc.toNat [hiByte w, loByte w] with status := .running, pending := [] }

end Sys2Proof.Machine
end

