-- ==== Sys2Proof/Machine/Step.lean ====
section
/-! DEFINITION. The machine's one step, and the placing of a word where it fetches next. -/

namespace Sys2Proof.Machine

/-- One atomic action (spec/60_exceptions.md R232): the scheduled one, or else a `Step` (R71). -/
def step (s : State) : Host.Outcome State Fault Refusal := s.move

/-- `s` with the instruction of table word `w` stored where `step` fetches next (log 14). -/
def State.withFetchWord (s : State) (nbits w : Nat) : State := s.placeWord (tableWord nbits w)

end Sys2Proof.Machine
end

