-- ==== Sys2Proof/Safety.lean ====
section
/-! DEFINITION. The terms in which claims are made: what is left unchanged, when a run is safe, and the driver's view
of a failure. -/

namespace Sys2Proof.Machine

/-- The parts of the state besides the general registers and memory. -/
inductive StatePart where
  | i | pc | stack | sp | dt | st | fb | status | randDraws | keyDraws | pending | loadable
  deriving DecidableEq, Repr

/-- The two states agree in this part. -/
def StatePart.same (s t : State) : StatePart → Prop
  | .i => t.i = s.i
  | .pc => t.pc = s.pc
  | .stack => t.stack = s.stack
  | .sp => t.sp = s.sp
  | .dt => t.dt = s.dt
  | .st => t.st = s.st
  | .fb => t.fb = s.fb
  | .status => t.status = s.status
  | .randDraws => t.randDraws = s.randDraws
  | .keyDraws => t.keyDraws = s.keyDraws
  | .pending => t.pending = s.pending
  | .loadable => t.loadable = s.loadable

/-- From `s` to `t` nothing changes but the registers `regs`, the parts `parts` and the memory bytes at the masked
addresses `stored`: "every piece of state a rule does not name is left unchanged" (spec/00_scope.md R9). -/
def Frame (regs : List Nibble) (parts : List StatePart) (stored : List Nat) (s t : State) : Prop :=
  (∀ x, x ∉ regs → t.readV x = s.readV x) ∧
  (∀ p, p ∉ parts → StatePart.same s t p) ∧
  (∀ a, effAddr a ∉ stored → t.readByte a = s.readByte a)

/-- Every word of an opcode-table row decodes to that row's instruction, its fields read by `f`
(spec/30_encoding.md R77). -/
def RowDecodes (mask match_ : Word) (f : Word → Instr) : Prop :=
  ∀ w, w &&& mask = match_ → decodeWord w = .ok (f w)

/-- The masked addresses of `n` bytes from `a` on (spec/20_memory.md R51, R54). -/
def byteAddrs (a n : Nat) : List Nat := (List.range n).map fun k => effAddr (a + k)

/-- The registers `V[0]` to `V[x]` (spec/43_index_memory.md R174, R175). -/
def regsUpTo (x : Nibble) : List Nibble := (List.range (x.toNat + 1)).map fun k => BitVec.ofNat 4 k

/-- A 1 bit of the sprite `rows` at (x0, y0) falls on pixel (px, py): some row `r` and column `c`, each wrapped, bit 7
leftmost (spec/40_display.md R102). -/
def SpriteCovers (x0 y0 : Byte) (rows : List Byte) (px py : Nat) : Prop :=
  ∃ r c b, rows[r]? = some b ∧ c < 8 ∧ b.getLsbD (7 - c) = true ∧
    (x0.toNat + c) % 64 = px ∧ (y0.toNat + r) % 32 = py

/-- The six instructions that write `VF` as a flag (spec/10_state.md R21). -/
def writesFlag : Instr → Prop
  | .addReg _ _ | .sub _ _ | .shr _ _ | .subn _ _ | .shl _ _ | .drw _ _ _ => True
  | .cls | .ret | .jp _ | .call _ | .seImm _ _ | .sneImm _ _ | .seReg _ _ | .ldImm _ _ | .addImm _ _ | .ldReg _ _
  | .or _ _ | .and _ _ | .xor _ _ | .sneReg _ _ | .ldI _ | .jpV0 _ | .rnd _ _ | .skp _ | .sknp _ | .ldVxDt _
  | .ldVxK _ | .ldDtVx _ | .ldStVx _ | .addI _ | .ldF _ | .ldB _ | .stRegs _ | .ldRegs _ => False

/-- The instructions that name a register as their plain destination in the cycle that runs them, and that register
is `VF` (R21: "any instruction may name it"). `Fx0A` writes its register later, by `KeyEvent` (R193). -/
def destIsVF : Instr → Prop
  | .ldImm x _ | .addImm x _ | .ldReg x _ | .or x _ | .and x _ | .xor x _ | .rnd x _ | .ldVxDt x | .ldRegs x => x = vf
  | .addReg _ _ | .sub _ _ | .shr _ _ | .subn _ _ | .shl _ _ | .drw _ _ _ => False
  | .cls | .ret | .jp _ | .call _ | .seImm _ _ | .sneImm _ _ | .seReg _ _ | .sneReg _ _ | .ldI _ | .jpV0 _ | .skp _
  | .sknp _ | .ldVxK _ | .ldDtVx _ | .ldStVx _ | .addI _ | .ldF _ | .ldB _ | .stRegs _ => False

/-- The ten instructions that write `pc` other than by the fetch advance (spec/10_state.md R23). -/
def writesPc : Instr → Prop
  | .ret | .jp _ | .call _ | .jpV0 _ => True
  | .seImm _ _ | .sneImm _ _ | .seReg _ _ | .sneReg _ _ | .skp _ | .sknp _ => True
  | .cls | .ldImm _ _ | .addImm _ _ | .ldReg _ _ | .or _ _ | .and _ _ | .xor _ _ | .addReg _ _ | .sub _ _ | .shr _ _
  | .subn _ _ | .shl _ _ | .ldI _ | .rnd _ _ | .drw _ _ _ | .ldVxDt _ | .ldVxK _ | .ldDtVx _ | .ldStVx _ | .addI _
  | .ldF _ | .ldB _ | .stRegs _ | .ldRegs _ => False

/-- Calls one after another, each executed in the state the one before it left. -/
def callChain : List Addr → State → Host.Outcome State Fault Refusal
  | [], s => .next s
  | a :: rest, s =>
    match exec (.call a) s with
    | .next t => callChain rest t
    | .fault r => .fault r
    | .refused r => .refused r

/-- Memory is in its canonical form (`Memory.wf`): 4096 bytes, each listed at most once. -/
def State.memWf (s : State) : Prop := Memory.wf s.mem = true

/-- The error record of a failed state says what stands in that state: the pc, the word it fetches and the cause, none
of which moves until `Reset` (spec/60_exceptions.md R215, R217); and a suspended or failed machine admits no `Load`. -/
def State.errTrue (s : State) : Prop :=
  match s.status with
  | .running => True
  | .waitKey _ => s.loadable = false
  | .failed .programTooLarge => s.loadable = false
  | .failed (.inCycle kind pc0 w) =>
    s.loadable = false ∧ pc0 = s.pc ∧ w = s.fetch ∧
      match kind with
      | .stackOverflow => s.sp = 16 ∧ ∃ nnn, decodeWord w = .ok (.call nnn)
      | .stackUnderflow => s.sp = 0 ∧ decodeWord w = .ok .ret
      | .unknownOpcode => decodeWord w = .error (.unknownOpcode w)

/-- Not failed: a FAILED state is never a final state of a successful run (R217). -/
def State.safe (s : State) : Bool :=
  match s.status with
  | .running => true
  | .waitKey _ => true
  | .failed _ => false

/-- The driver's view of one step (R233: it "should check after each `Step`; a `FAILED` run is over"): a step into or
within FAILED is reported as a fault with its error record (R217, log 9). -/
def driverStep (s : State) : Host.Outcome State Fault Refusal :=
  match step s with
  | .next t =>
    match t.status with
    | .failed e => .fault (.failed e)
    | .running => .next t
    | .waitKey _ => .next t
  | .fault r => .fault r
  | .refused r => .refused r

end Sys2Proof.Machine
end

