-- ==== Sys2Proof/Certificates/Slice0/Obligations.lean ====
section
/-! DEFINITION. The statements for the provers. Each says in its docstring which rule or section of the spec it
formalises. `exec i s` runs instruction `i` from the state `s` BEFORE the cycle, so `s.pc` is the instruction's own
address; "`Frame regs parts stored s t`" says that nothing changes but what it lists. -/

open Sys2Proof Sys2Proof.Machine

/-! ## Encoding -/

/-- Decoding the bytes of any instruction, whatever bytes follow, gives it back with every operand, and the bytes that
follow (spec/30_encoding.md sections 2 and 3, the byte order of spec/20_memory.md section 2). -/
def Obligations.DecodeOfEncode : Prop :=
  ∀ (i : Instr) (rest : List Byte), decodeBytes (encode i ++ rest) = .ok (i, rest)

/-- Bytes that decode to an instruction are exactly that instruction's encoding: the decoder drops no bit
(spec/30_encoding.md sections 2 and 3). That it drops none, every digit shown in a pattern having to match, is the spec's
decision D19 (log 15). -/
def Obligations.EncodeOfDecode : Prop :=
  ∀ (bs : List Byte) (i : Instr) (rest : List Byte), decodeBytes bs = .ok (i, rest) → bs = encode i ++ rest

/-- The 34 rows of the opcode map (spec/30_encoding.md section 3): every word that matches a row's mask and match value
decodes to the row's instruction with the row's fields, and no two rows match the same word. That the shown digits
must match exactly is the spec's decision D19. -/
def Obligations.OpcodeMapRows : Prop :=
  (RowDecodes 0xFFFF#16 0x00E0#16 (fun _ => .cls) ∧
   RowDecodes 0xFFFF#16 0x00EE#16 (fun _ => .ret) ∧
   RowDecodes 0xF000#16 0x1000#16 (fun w => .jp (fieldNnn w)) ∧
   RowDecodes 0xF000#16 0x2000#16 (fun w => .call (fieldNnn w)) ∧
   RowDecodes 0xF000#16 0x3000#16 (fun w => .seImm (fieldX w) (fieldKk w)) ∧
   RowDecodes 0xF000#16 0x4000#16 (fun w => .sneImm (fieldX w) (fieldKk w)) ∧
   RowDecodes 0xF00F#16 0x5000#16 (fun w => .seReg (fieldX w) (fieldY w)) ∧
   RowDecodes 0xF000#16 0x6000#16 (fun w => .ldImm (fieldX w) (fieldKk w)) ∧
   RowDecodes 0xF000#16 0x7000#16 (fun w => .addImm (fieldX w) (fieldKk w)) ∧
   RowDecodes 0xF00F#16 0x8000#16 (fun w => .ldReg (fieldX w) (fieldY w)) ∧
   RowDecodes 0xF00F#16 0x8001#16 (fun w => .or (fieldX w) (fieldY w)) ∧
   RowDecodes 0xF00F#16 0x8002#16 (fun w => .and (fieldX w) (fieldY w)) ∧
   RowDecodes 0xF00F#16 0x8003#16 (fun w => .xor (fieldX w) (fieldY w)) ∧
   RowDecodes 0xF00F#16 0x8004#16 (fun w => .addReg (fieldX w) (fieldY w)) ∧
   RowDecodes 0xF00F#16 0x8005#16 (fun w => .sub (fieldX w) (fieldY w)) ∧
   RowDecodes 0xF00F#16 0x8006#16 (fun w => .shr (fieldX w) (fieldY w)) ∧
   RowDecodes 0xF00F#16 0x8007#16 (fun w => .subn (fieldX w) (fieldY w))) ∧
  (RowDecodes 0xF00F#16 0x800E#16 (fun w => .shl (fieldX w) (fieldY w)) ∧
   RowDecodes 0xF00F#16 0x9000#16 (fun w => .sneReg (fieldX w) (fieldY w)) ∧
   RowDecodes 0xF000#16 0xA000#16 (fun w => .ldI (fieldNnn w)) ∧
   RowDecodes 0xF000#16 0xB000#16 (fun w => .jpV0 (fieldNnn w)) ∧
   RowDecodes 0xF000#16 0xC000#16 (fun w => .rnd (fieldX w) (fieldKk w)) ∧
   RowDecodes 0xF000#16 0xD000#16 (fun w => .drw (fieldX w) (fieldY w) (fieldN w)) ∧
   RowDecodes 0xF0FF#16 0xE09E#16 (fun w => .skp (fieldX w)) ∧
   RowDecodes 0xF0FF#16 0xE0A1#16 (fun w => .sknp (fieldX w)) ∧
   RowDecodes 0xF0FF#16 0xF007#16 (fun w => .ldVxDt (fieldX w)) ∧
   RowDecodes 0xF0FF#16 0xF00A#16 (fun w => .ldVxK (fieldX w)) ∧
   RowDecodes 0xF0FF#16 0xF015#16 (fun w => .ldDtVx (fieldX w)) ∧
   RowDecodes 0xF0FF#16 0xF018#16 (fun w => .ldStVx (fieldX w)) ∧
   RowDecodes 0xF0FF#16 0xF01E#16 (fun w => .addI (fieldX w)) ∧
   RowDecodes 0xF0FF#16 0xF029#16 (fun w => .ldF (fieldX w)) ∧
   RowDecodes 0xF0FF#16 0xF033#16 (fun w => .ldB (fieldX w)) ∧
   RowDecodes 0xF0FF#16 0xF055#16 (fun w => .stRegs (fieldX w)) ∧
   RowDecodes 0xF0FF#16 0xF065#16 (fun w => .ldRegs (fieldX w))) ∧
  (∀ (i j : Instr) (w : Word), w &&& i.rowMask = i.rowMatch → w &&& j.rowMask = j.rowMatch →
    i.rowMask = j.rowMask ∧ i.rowMatch = j.rowMatch)

/-- The unknown words, family by family (the table of spec/30_encoding.md section 3, R78): a word is rejected, and by
its own name, exactly when it lies in one of the six families' unknown sets; families 1 to 4, 6, 7 and A to D have
none. -/
def Obligations.UnknownWordsByFamily : Prop :=
  ∀ w : Word, decodeWord w = .error (.unknownOpcode w) ↔
    (fieldOp w = 0x0#4 ∧ fieldNnn w ≠ 0x0E0#12 ∧ fieldNnn w ≠ 0x0EE#12) ∨
    (fieldOp w = 0x5#4 ∧ fieldN w ≠ 0x0#4) ∨
    (fieldOp w = 0x8#4 ∧ (fieldN w = 0x8#4 ∨ fieldN w = 0x9#4 ∨ fieldN w = 0xA#4 ∨ fieldN w = 0xB#4 ∨
      fieldN w = 0xC#4 ∨ fieldN w = 0xD#4 ∨ fieldN w = 0xF#4)) ∨
    (fieldOp w = 0x9#4 ∧ fieldN w ≠ 0x0#4) ∨
    (fieldOp w = 0xE#4 ∧ fieldKk w ≠ 0x9E#8 ∧ fieldKk w ≠ 0xA1#8) ∨
    (fieldOp w = 0xF#4 ∧ fieldKk w ≠ 0x07#8 ∧ fieldKk w ≠ 0x0A#8 ∧ fieldKk w ≠ 0x15#8 ∧ fieldKk w ≠ 0x18#8 ∧
      fieldKk w ≠ 0x1E#8 ∧ fieldKk w ≠ 0x29#8 ∧ fieldKk w ≠ 0x33#8 ∧ fieldKk w ≠ 0x55#8 ∧ fieldKk w ≠ 0x65#8)

/-- Words written out by hand from the patterns, some from the spec's own vectors V-E1 to V-E18
(spec/95_test_vectors.md section 2.1), decode as the spec says; that 0x0000, 0x5AB1 and 0xF175 are unknown, every digit
shown in a pattern having to match, is the spec's decision D19 (log 15). -/
def Obligations.WordsWrittenOutDecode : Prop :=
  decodeWord 0x00E0#16 = .ok .cls ∧ decodeWord 0x2FFF#16 = .ok (.call 0xFFF#12) ∧
  decodeWord 0x3A7F#16 = .ok (.seImm 0xA#4 0x7F#8) ∧ decodeWord 0x5AB0#16 = .ok (.seReg 0xA#4 0xB#4) ∧
  decodeWord 0x8AB7#16 = .ok (.subn 0xA#4 0xB#4) ∧ decodeWord 0x8ABE#16 = .ok (.shl 0xA#4 0xB#4) ∧
  decodeWord 0xD5A3#16 = .ok (.drw 0x5#4 0xA#4 0x3#4) ∧ decodeWord 0xE1A1#16 = .ok (.sknp 0x1#4) ∧
  decodeWord 0xF133#16 = .ok (.ldB 0x1#4) ∧ decodeWord 0x0000#16 = .error (.unknownOpcode 0x0000#16) ∧
  decodeWord 0x5AB1#16 = .error (.unknownOpcode 0x5AB1#16) ∧ decodeWord 0xF175#16 = .error (.unknownOpcode 0xF175#16)

/-! ## Register load, arithmetic, logic, shift, random -/

/-- R142: `6xkk` sets `V[x]` to `kk`, for every `x`, `VF` included, and changes nothing else. -/
def Obligations.LdImmSetsRegister : Prop :=
  RowDecodes 0xF000#16 0x6000#16 (fun w => .ldImm (fieldX w) (fieldKk w)) ∧
  ∀ (s : State) (x : Nibble) (kk : Byte), ∃ t, exec (.ldImm x kk) s = .next t ∧
    t.readV x = kk ∧ t.pc = s.pc + 2#16 ∧ Frame [x] [.pc] [] s t

/-- R143: `7xkk` adds `kk` to `V[x]` modulo 256 and records no carry: `VF` is unchanged unless `x = 0xF`. -/
def Obligations.AddImmWrapsWithoutFlag : Prop :=
  RowDecodes 0xF000#16 0x7000#16 (fun w => .addImm (fieldX w) (fieldKk w)) ∧
  ∀ (s : State) (x : Nibble) (kk : Byte), ∃ t, exec (.addImm x kk) s = .next t ∧
    (t.readV x).toNat = ((s.readV x).toNat + kk.toNat) % 256 ∧ t.pc = s.pc + 2#16 ∧ Frame [x] [.pc] [] s t

/-- R144: `8xy0` copies `V[y]` to `V[x]` and changes nothing else. -/
def Obligations.LdRegCopies : Prop :=
  RowDecodes 0xF00F#16 0x8000#16 (fun w => .ldReg (fieldX w) (fieldY w)) ∧
  ∀ (s : State) (x y : Nibble), ∃ t, exec (.ldReg x y) s = .next t ∧
    t.readV x = s.readV y ∧ t.pc = s.pc + 2#16 ∧ Frame [x] [.pc] [] s t

/-- R145, R146, R147: OR, AND and XOR write `V[x]` bit by bit from `V[x]` and `V[y]` and leave every other register
alone, `VF` too unless `x = 0xF`. -/
def Obligations.LogicBitwiseWithoutFlag : Prop :=
  RowDecodes 0xF00F#16 0x8001#16 (fun w => .or (fieldX w) (fieldY w)) ∧
  RowDecodes 0xF00F#16 0x8002#16 (fun w => .and (fieldX w) (fieldY w)) ∧
  RowDecodes 0xF00F#16 0x8003#16 (fun w => .xor (fieldX w) (fieldY w)) ∧
  ∀ (s : State) (x y : Nibble),
    (∃ t, exec (.or x y) s = .next t ∧ t.pc = s.pc + 2#16 ∧ Frame [x] [.pc] [] s t ∧
      ∀ k, k < 8 → (t.readV x).getLsbD k = ((s.readV x).getLsbD k || (s.readV y).getLsbD k)) ∧
    (∃ t, exec (.and x y) s = .next t ∧ t.pc = s.pc + 2#16 ∧ Frame [x] [.pc] [] s t ∧
      ∀ k, k < 8 → (t.readV x).getLsbD k = ((s.readV x).getLsbD k && (s.readV y).getLsbD k)) ∧
    (∃ t, exec (.xor x y) s = .next t ∧ t.pc = s.pc + 2#16 ∧ Frame [x] [.pc] [] s t ∧
      ∀ k, k < 8 → (t.readV x).getLsbD k = ((s.readV x).getLsbD k ^^ (s.readV y).getLsbD k))

/-- `8xy4` (spec/42_alu.md sections 1 and 2) writes the sum modulo 256 to `V[x]` and then the carry, from the operands as
they were, to `VF`. That with `x = 0xF` the carry is what stays is the spec's decision D9. -/
def Obligations.AddRegSumAndCarry : Prop :=
  RowDecodes 0xF00F#16 0x8004#16 (fun w => .addReg (fieldX w) (fieldY w)) ∧
  ∀ (s : State) (x y : Nibble), ∃ t, exec (.addReg x y) s = .next t ∧
    (x ≠ 0xF#4 → (t.readV x).toNat = ((s.readV x).toNat + (s.readV y).toNat) % 256) ∧
    t.readV 0xF#4 = (if (s.readV x).toNat + (s.readV y).toNat ≥ 256 then 0x01#8 else 0x00#8) ∧
    t.pc = s.pc + 2#16 ∧ Frame [x, 0xF#4] [.pc] [] s t

/-- The subtractions (spec/42_alu.md sections 1 and 2): `8xy5` writes `V[x] - V[y]` and `8xy7` writes `V[y] - V[x]` to
`V[x]`, modulo 256, and then 1 to `VF` if no borrow occurred, else 0. That with `x = 0xF` the flag is what stays is the
spec's decision D9. -/
def Obligations.SubtractionsAndBorrow : Prop :=
  RowDecodes 0xF00F#16 0x8005#16 (fun w => .sub (fieldX w) (fieldY w)) ∧
  RowDecodes 0xF00F#16 0x8007#16 (fun w => .subn (fieldX w) (fieldY w)) ∧
  ∀ (s : State) (x y : Nibble),
    (∃ t, exec (.sub x y) s = .next t ∧
      (x ≠ 0xF#4 → (t.readV x).toNat =
        if (s.readV x).toNat ≥ (s.readV y).toNat then (s.readV x).toNat - (s.readV y).toNat
        else (s.readV x).toNat + 256 - (s.readV y).toNat) ∧
      t.readV 0xF#4 = (if (s.readV x).toNat ≥ (s.readV y).toNat then 0x01#8 else 0x00#8) ∧
      t.pc = s.pc + 2#16 ∧ Frame [x, 0xF#4] [.pc] [] s t) ∧
    (∃ t, exec (.subn x y) s = .next t ∧
      (x ≠ 0xF#4 → (t.readV x).toNat =
        if (s.readV y).toNat ≥ (s.readV x).toNat then (s.readV y).toNat - (s.readV x).toNat
        else (s.readV y).toNat + 256 - (s.readV x).toNat) ∧
      t.readV 0xF#4 = (if (s.readV y).toNat ≥ (s.readV x).toNat then 0x01#8 else 0x00#8) ∧
      t.pc = s.pc + 2#16 ∧ Frame [x, 0xF#4] [.pc] [] s t)

/-- The shifts (spec/42_alu.md sections 1 and 2) halve or double `V[x]` modulo 256 and then write the bit shifted out to
`VF`, whatever `y` is; `V[y]` is neither read nor written. That with `x = 0xF` the flag is what stays is the spec's
decision D9. -/
def Obligations.ShiftsAndLostBit : Prop :=
  RowDecodes 0xF00F#16 0x8006#16 (fun w => .shr (fieldX w) (fieldY w)) ∧
  RowDecodes 0xF00F#16 0x800E#16 (fun w => .shl (fieldX w) (fieldY w)) ∧
  ∀ (s : State) (x y : Nibble),
    (∃ t, exec (.shr x y) s = .next t ∧
      (x ≠ 0xF#4 → (t.readV x).toNat = (s.readV x).toNat / 2) ∧
      (t.readV 0xF#4).toNat = (s.readV x).toNat % 2 ∧
      t.pc = s.pc + 2#16 ∧ Frame [x, 0xF#4] [.pc] [] s t) ∧
    (∃ t, exec (.shl x y) s = .next t ∧
      (x ≠ 0xF#4 → (t.readV x).toNat = (2 * (s.readV x).toNat) % 256) ∧
      (t.readV 0xF#4).toNat = (s.readV x).toNat / 128 ∧
      t.pc = s.pc + 2#16 ∧ Frame [x, 0xF#4] [.pc] [] s t)

/-- `Cxkk` (spec/42_alu.md section 2): `V[x]` gets one fresh random byte AND `kk`; the byte is a free value of the model
(log 1, the spec's decision D18), so this holds whatever it is; the draw is counted; nothing else changes. -/
def Obligations.RndMasksAFreshDraw : Prop :=
  ∀ (s : State) (x : Nibble) (kk : Byte), ∃ t, exec (.rnd x kk) s = .next t ∧
    t.readV x = Config.randByte s.randDraws &&& kk ∧ t.randDraws = s.randDraws + 1 ∧
    t.pc = s.pc + 2#16 ∧ Frame [x] [.pc, .randDraws] [] s t

/-! ## Display -/

/-- R102: `DrawSprite` flips exactly the pixels on which a 1 bit of the sprite falls, every coordinate wrapped, and
reports a collision exactly if one of them was lit. -/
def Obligations.DrawSpriteFlipsCoveredPixels : Prop :=
  ∀ (fb : Framebuffer) (x0 y0 : Byte) (rows : List Byte), rows.length ≤ 15 →
    (∀ px py, px < 64 → py < 32 →
      (fbPixel (drawSprite fb x0 y0 rows).1 px py ≠ fbPixel fb px py ↔ SpriteCovers x0 y0 rows px py)) ∧
    ((drawSprite fb x0 y0 rows).2 = true ↔
      ∃ px py, px < 64 ∧ py < 32 ∧ SpriteCovers x0 y0 rows px py ∧ fbPixel fb px py = true)

/-- The two properties of spec/40_display.md section 1 (R104, which the spec derives from R102): drawing a sprite twice
restores the framebuffer, and the second draw collides exactly if the first turned a pixel on; the 8 x 1 sprite at
(63, 31) toggles (63, 31) and (0, 31) to (6, 31) and no other pixel. -/
def Obligations.DrawTwiceRestores : Prop :=
  (∀ (fb : Framebuffer) (x0 y0 : Byte) (rows : List Byte), rows.length ≤ 15 →
    (drawSprite (drawSprite fb x0 y0 rows).1 x0 y0 rows).1 = fb ∧
    ((drawSprite (drawSprite fb x0 y0 rows).1 x0 y0 rows).2 = true ↔
      ∃ px py, px < 64 ∧ py < 32 ∧ fbPixel fb px py = false ∧
        fbPixel (drawSprite fb x0 y0 rows).1 px py = true)) ∧
  (∀ (fb : Framebuffer) (px py : Nat), px < 64 → py < 32 →
    (fbPixel (drawSprite fb 63#8 31#8 [0xFF#8]).1 px py ≠ fbPixel fb px py ↔ py = 31 ∧ (px = 63 ∨ px ≤ 6)))

/-- R105, R101: `00E0` sets every pixel to off and changes nothing else; `VF` is unchanged. -/
def Obligations.ClsClearsDisplay : Prop :=
  RowDecodes 0xFFFF#16 0x00E0#16 (fun _ => .cls) ∧
  ∀ s : State, ∃ t, exec .cls s = .next t ∧ (∀ (x : Fin 64) (y : Fin 32), t.pixelAt x y = false) ∧
    t.pc = s.pc + 2#16 ∧ Frame [] [.pc, .fb] [] s t

/-- `Dxyn` (spec/40_display.md section 2): the sprite's `n` bytes are read from memory at `I`, each address masked, and
drawn at (`V[x]`, `V[y]`) as those registers were; `VF` is always written, 1 on a collision, else 0; nothing else
changes, `I` included. That coordinates named `VF` are read before the flag is written, that `I` stays and that `n = 0`
draws nothing are the spec's decisions D9, D10 and D21. -/
def Obligations.DrwDrawsFromMemory : Prop :=
  ∀ (s : State) (x y n : Nibble), ∃ t, exec (.drw x y n) s = .next t ∧
    t.fb = (drawSprite s.fb (s.readV x) (s.readV y)
      ((List.range n.toNat).map fun r => s.readByte (s.i.toNat + r))).1 ∧
    t.readV 0xF#4 = (if (drawSprite s.fb (s.readV x) (s.readV y)
      ((List.range n.toNat).map fun r => s.readByte (s.i.toNat + r))).2 then 0x01#8 else 0x00#8) ∧
    t.pc = s.pc + 2#16 ∧ Frame [0xF#4] [.pc, .fb] [] s t

/-! ## Control transfer -/

/-- `00EE` (spec/41_flow.md section 2, spec/60_exceptions.md sections 1 and 2) with `SP > 0` pops: `SP - 1`, `pc` from
the cell it then points at; with `SP = 0` it raises StackUnderflow. The stack discipline is the spec's decision D11; that
the failure changes nothing but `status` and `err`, `pc` included, is its decisions D12 and D32; that the record holds the
`pc` and the word is its decision D13 (log 15), the word taken from the instruction's encoding (log 17, DEDUCED); that the
failure is a next state is the model's choice (log 9). -/
def Obligations.RetPopsOrUnderflows : Prop :=
  RowDecodes 0xFFFF#16 0x00EE#16 (fun _ => .ret) ∧
  (∀ s : State, 0 < s.sp.val → ∃ t, exec .ret s = .next t ∧
    t.sp.val = s.sp.val - 1 ∧ s.stack[t.sp.val]? = some t.pc ∧ Frame [] [.pc, .sp] [] s t) ∧
  (∀ s : State, s.sp.val = 0 →
    exec .ret s = .next { s with status := .failed (.inCycle .stackUnderflow s.pc 0x00EE#16) })

/-- R121: `1nnn` sets `pc` to `nnn`, zero-extended, and changes nothing else. -/
def Obligations.JpSetsPc : Prop :=
  RowDecodes 0xF000#16 0x1000#16 (fun w => .jp (fieldNnn w)) ∧
  ∀ (s : State) (nnn : Addr), ∃ t, exec (.jp nnn) s = .next t ∧ t.pc.toNat = nnn.toNat ∧ Frame [] [.pc] [] s t

/-- `2nnn` (spec/41_flow.md section 2, spec/60_exceptions.md sections 1 and 2) with `SP < 16` pushes the address after
itself and jumps; with `SP = 16` it raises StackOverflow. The stack discipline is the spec's decision D11; that the
failure changes nothing but `status` and `err`, `pc` included, is its decisions D12 and D32; that the record holds the
`pc` and the word is its decision D13 (log 15), the word taken from the instruction's encoding (log 17, DEDUCED); that the
failure is a next state is the model's choice (log 9). -/
def Obligations.CallPushesOrOverflows : Prop :=
  RowDecodes 0xF000#16 0x2000#16 (fun w => .call (fieldNnn w)) ∧
  (∀ (s : State) (nnn : Addr), s.sp.val < 16 → ∃ t, exec (.call nnn) s = .next t ∧
    t.stack[s.sp.val]? = some (s.pc + 2#16) ∧ (∀ k, k ≠ s.sp.val → t.stack[k]? = s.stack[k]?) ∧
    t.sp.val = s.sp.val + 1 ∧ t.pc.toNat = nnn.toNat ∧ Frame [] [.pc, .sp, .stack] [] s t) ∧
  (∀ (s : State) (nnn : Addr), s.sp.val = 16 →
    exec (.call nnn) s = .next { s with
      status := .failed (.inCycle .stackOverflow s.pc (BitVec.ofNat 16 (0x2000 + nnn.toNat))) })

/-- R123, R124, R128: `3xkk` skips two bytes more exactly if `V[x] = kk`, `4xkk` exactly if not; nothing but `pc`
changes. -/
def Obligations.ImmediateSkips : Prop :=
  RowDecodes 0xF000#16 0x3000#16 (fun w => .seImm (fieldX w) (fieldKk w)) ∧
  RowDecodes 0xF000#16 0x4000#16 (fun w => .sneImm (fieldX w) (fieldKk w)) ∧
  ∀ (s : State) (x : Nibble) (kk : Byte),
    (∃ t, exec (.seImm x kk) s = .next t ∧ Frame [] [.pc] [] s t ∧
      t.pc = if s.readV x = kk then s.pc + 4#16 else s.pc + 2#16) ∧
    (∃ t, exec (.sneImm x kk) s = .next t ∧ Frame [] [.pc] [] s t ∧
      t.pc = if s.readV x ≠ kk then s.pc + 4#16 else s.pc + 2#16)

/-- `5xy0` and `9xy0` (spec/41_flow.md section 2): `5xy0` skips two bytes more exactly if `V[x] = V[y]`, `9xy0` exactly if
not; nothing but `pc` changes; a word of family 5 or 9 whose low nibble is not 0 is unknown (the strictness of decoding is
the spec's decision D19). -/
def Obligations.RegisterSkips : Prop :=
  RowDecodes 0xF00F#16 0x5000#16 (fun w => .seReg (fieldX w) (fieldY w)) ∧
  RowDecodes 0xF00F#16 0x9000#16 (fun w => .sneReg (fieldX w) (fieldY w)) ∧
  (∀ w : Word, (fieldOp w = 0x5#4 ∨ fieldOp w = 0x9#4) → fieldN w ≠ 0x0#4 →
    decodeWord w = .error (.unknownOpcode w)) ∧
  ∀ (s : State) (x y : Nibble),
    (∃ t, exec (.seReg x y) s = .next t ∧ Frame [] [.pc] [] s t ∧
      t.pc = if s.readV x = s.readV y then s.pc + 4#16 else s.pc + 2#16) ∧
    (∃ t, exec (.sneReg x y) s = .next t ∧ Frame [] [.pc] [] s t ∧
      t.pc = if s.readV x ≠ s.readV y then s.pc + 4#16 else s.pc + 2#16)

/-- `Bnnn` (spec/41_flow.md section 2): `pc` becomes `nnn + V0`, a sum that never wraps, and the next fetch reads the two
bytes at that sum, masked; nothing else changes. That `pc` keeps a sum above 0xFFF is the spec's decision D1. -/
def Obligations.JpV0AddsRegisterZero : Prop :=
  ∀ (s : State) (nnn : Addr), ∃ t, exec (.jpV0 nnn) s = .next t ∧
    t.pc.toNat = nnn.toNat + (s.readV 0x0#4).toNat ∧
    t.fetch = wordOfBytes (s.readByte (nnn.toNat + (s.readV 0x0#4).toNat))
      (s.readByte (nnn.toNat + (s.readV 0x0#4).toNat + 1)) ∧
    Frame [] [.pc] [] s t

/-- "CALL then RETURN restores program_counter to the instruction immediately after the CALL" (spec/41_flow.md
section 2): and `SP`, and everything else but the stack cell the call wrote. The stack discipline is the spec's decision
D11 (log 15). -/
def Obligations.CallThenRetReturns : Prop :=
  ∀ (s : State) (nnn : Addr), s.sp.val < 16 → ∃ t u, exec (.call nnn) s = .next t ∧ exec .ret t = .next u ∧
    u.pc = s.pc + 2#16 ∧ u.sp = s.sp ∧ (∀ k, k ≠ s.sp.val → u.stack[k]? = s.stack[k]?) ∧
    Frame [] [.pc, .stack] [] s u

/-- "16 nested CALLs succeed, a 17th fails" (spec/60_exceptions.md section 1): from any depth, calls up to the depth of
16 all succeed, and one more raises StackOverflow, changing nothing but `status` and `err` (the spec's decisions D12,
D32); from an empty stack these are 16 nested calls and a 17th. That `SP` counts entries is the spec's decision D11,
that the record holds the `pc` and the word its decision D13 (log 15), the word taken from the instruction's encoding
(log 17, DEDUCED); that the failure is a next state is the model's choice (log 9). -/
def Obligations.SeventeenthNestedCallOverflows : Prop :=
  ∀ (s : State) (targets : List Addr), s.sp.val + targets.length = 16 →
    ∃ t, callChain targets s = .next t ∧ t.sp.val = 16 ∧ t.status = s.status ∧
      ∀ nnn, exec (.call nnn) t = .next { t with
        status := .failed (.inCycle .stackOverflow t.pc (BitVec.ofNat 16 (0x2000 + nnn.toNat))) }

/-! ## Index register and memory -/

/-- R170: `Annn` sets `I` to `nnn`, zero-extended, and changes nothing else. -/
def Obligations.LdISetsIndex : Prop :=
  RowDecodes 0xF000#16 0xA000#16 (fun w => .ldI (fieldNnn w)) ∧
  ∀ (s : State) (nnn : Addr), ∃ t, exec (.ldI nnn) s = .next t ∧ t.i.toNat = nnn.toNat ∧
    t.pc = s.pc + 2#16 ∧ Frame [] [.pc, .i] [] s t

/-- `Fx1E` (spec/43_index_memory.md section 2): `I` gets the sum modulo 65536, all 16 bits kept (the spec's decision D4);
no flag is written and nothing else changes. -/
def Obligations.AddIAddsSixteenBits : Prop :=
  ∀ (s : State) (x : Nibble), ∃ t, exec (.addI x) s = .next t ∧
    t.i.toNat = (s.i.toNat + (s.readV x).toNat) % 65536 ∧ t.pc = s.pc + 2#16 ∧ Frame [] [.pc, .i] [] s t

/-- `Fx29` (spec/43_index_memory.md section 2): `I` gets the address of the glyph for the low nibble of `V[x]`, five bytes
a glyph from FONT_BASE; no memory is read and nothing else changes. The low nibble for values above 0x0F is the spec's
decision D7; FONT_BASE is the model's parameter (log 6). -/
def Obligations.LdFPointsAtGlyph : Prop :=
  ∀ (s : State) (x : Nibble), ∃ t, exec (.ldF x) s = .next t ∧
    t.i.toNat = Config.fontBase + 5 * ((s.readV x).toNat % 16) ∧ t.pc = s.pc + 2#16 ∧ Frame [] [.pc, .i] [] s t

/-- `Fx33` (spec/43_index_memory.md sections 1 and 2) stores the hundreds, tens and ones of `V[x]` at `I`, `I + 1`,
`I + 2`, each address masked, and changes nothing else; that `I` stays is the spec's decision D10. -/
def Obligations.LdBStoresDecimalDigits : Prop :=
  RowDecodes 0xF0FF#16 0xF033#16 (fun w => .ldB (fieldX w)) ∧
  ∀ (s : State) (x : Nibble), ∃ t, exec (.ldB x) s = .next t ∧
    (s.memWf → (t.readByte s.i.toNat).toNat = (s.readV x).toNat / 100 ∧
      (t.readByte (s.i.toNat + 1)).toNat = (s.readV x).toNat / 10 % 10 ∧
      (t.readByte (s.i.toNat + 2)).toNat = (s.readV x).toNat % 10) ∧
    t.pc = s.pc + 2#16 ∧ Frame [] [.pc] (byteAddrs s.i.toNat 3) s t

/-- `Fx55` (spec/43_index_memory.md sections 1 and 2) stores `V[0]` to `V[x]` at `I`, `I + 1`, ..., each address masked,
and changes nothing else; that `I` stays is the spec's decision D10. -/
def Obligations.StRegsStoresRegisters : Prop :=
  RowDecodes 0xF0FF#16 0xF055#16 (fun w => .stRegs (fieldX w)) ∧
  ∀ (s : State) (x : Nibble), ∃ t, exec (.stRegs x) s = .next t ∧
    (s.memWf → ∀ y : Nibble, y.toNat ≤ x.toNat → t.readByte (s.i.toNat + y.toNat) = s.readV y) ∧
    t.pc = s.pc + 2#16 ∧ Frame [] [.pc] (byteAddrs s.i.toNat (x.toNat + 1)) s t

/-- `Fx65` (spec/43_index_memory.md sections 1 and 2) loads `V[0]` to `V[x]` from `I`, `I + 1`, ..., each address masked,
and changes nothing else; that `I` stays is the spec's decision D10. -/
def Obligations.LdRegsLoadsRegisters : Prop :=
  RowDecodes 0xF0FF#16 0xF065#16 (fun w => .ldRegs (fieldX w)) ∧
  ∀ (s : State) (x : Nibble), ∃ t, exec (.ldRegs x) s = .next t ∧
    (∀ y : Nibble, y.toNat ≤ x.toNat → t.readV y = s.readByte (s.i.toNat + y.toNat)) ∧
    t.pc = s.pc + 2#16 ∧ Frame (regsUpTo x) [.pc] [] s t

/-! ## Keyboard and timers -/

/-- `Ex9E` and `ExA1` (spec/44_keys_timers.md): one key level is asked, of the key in the low nibble of `V[x]`; the one
skips two bytes more exactly if it is down, the other exactly if it is up; nothing else changes. The level is a free
value of the model (log 2, the spec's decision D30), the low nibble is the spec's decision D8. -/
def Obligations.KeySkipsFollowTheLevel : Prop :=
  ∀ (s : State) (x k : Nibble), k.toNat = (s.readV x).toNat % 16 →
    (∃ t, exec (.skp x) s = .next t ∧ t.keyDraws = s.keyDraws + 1 ∧ Frame [] [.pc, .keyDraws] [] s t ∧
      t.pc = if Config.keyLevel s.keyDraws k = true then s.pc + 4#16 else s.pc + 2#16) ∧
    (∃ t, exec (.sknp x) s = .next t ∧ t.keyDraws = s.keyDraws + 1 ∧ Frame [] [.pc, .keyDraws] [] s t ∧
      t.pc = if Config.keyLevel s.keyDraws k = true then s.pc + 2#16 else s.pc + 4#16)

/-- R192, R194: `Fx07` reads the delay timer into `V[x]`, `Fx15` writes it from `V[x]`; nothing else changes. -/
def Obligations.DelayTimerMoves : Prop :=
  RowDecodes 0xF0FF#16 0xF007#16 (fun w => .ldVxDt (fieldX w)) ∧
  RowDecodes 0xF0FF#16 0xF015#16 (fun w => .ldDtVx (fieldX w)) ∧
  ∀ (s : State) (x : Nibble),
    (∃ t, exec (.ldVxDt x) s = .next t ∧ t.readV x = s.dt ∧ t.pc = s.pc + 2#16 ∧ Frame [x] [.pc] [] s t) ∧
    (∃ t, exec (.ldDtVx x) s = .next t ∧ t.dt = s.readV x ∧ t.pc = s.pc + 2#16 ∧ Frame [] [.pc, .dt] [] s t)

/-- `Fx18` (spec/44_keys_timers.md) writes the sound timer from `V[x]`; the tone is on exactly if that value is not 0 (the
spec's decision D29); nothing else changes. -/
def Obligations.SoundTimerLoad : Prop :=
  RowDecodes 0xF0FF#16 0xF018#16 (fun w => .ldStVx (fieldX w)) ∧
  ∀ (s : State) (x : Nibble), ∃ t, exec (.ldStVx x) s = .next t ∧ t.st = s.readV x ∧
    (t.tone = true ↔ s.readV x ≠ 0x00#8) ∧ t.pc = s.pc + 2#16 ∧ Frame [] [.pc, .st] [] s t

/-- `Fx0A` and its completion (spec/44_keys_timers.md; the suspend is the spec's decision D15, the dropping of other
events D16): the instruction suspends the machine with `pc` past it and `V[x]` untouched; a key event then writes the
key number to `V[x]` and lets it run on at that `pc`. -/
def Obligations.KeyWaitSuspendsThenCompletes : Prop :=
  ∀ (s : State) (x k : Nibble), s.status = .running → ∃ t u, exec (.ldVxK x) s = .next t ∧
    t.status = .waitKey x ∧ t.pc = s.pc + 2#16 ∧ Frame [] [.pc, .status] [] s t ∧
    t.act (.keyEvent k) = .next u ∧ u.status = .running ∧ (u.readV x).toNat = k.toNat ∧
    Frame [x] [.pc] [] s u ∧ u.pc = s.pc + 2#16

/-! ## Memory -/

/-- Byte access (spec/20_memory.md section 1): a store of one byte changes that byte of the 4096 and nothing else; a
read gives the value of the most recent write to that byte, both at the masked address. -/
def Obligations.ByteStoreThenRead : Prop :=
  ∀ (s : State) (a c : Nat) (b : Byte), s.memWf →
    (s.writeByte a b).readByte c = (if a % 4096 = c % 4096 then b else s.readByte c) ∧
    s.readByte c = s.readByte (c % 4096) ∧ Frame [] [] [a % 4096] s (s.writeByte a b)

/-- The instruction fetch (spec/20_memory.md section 2, spec/30_encoding.md section 1): big-endian, the byte at `pc` high
and the byte at `pc + 1` low, both addresses masked, so that after 0xFFF comes 0x000 (the spec's decision D2). -/
def Obligations.FetchIsBigEndian : Prop :=
  ∀ s : State, s.fetch.toNat = (s.readByte s.pc.toNat).toNat * 256 + (s.readByte (s.pc.toNat + 1)).toNat ∧
    (s.pc.toNat % 4096 = 4095 → s.fetch.toNat = (s.readByte 0xFFF).toNat * 256 + (s.readByte 0x000).toNat)

/-- A store is seen by the next fetch with nothing in between (spec/20_memory.md section 4, the spec's decision D31): the
bytes of an instruction, stored at `pc` by `withFetchWord` (log 14), are what the very next step runs; the model's
`loadable` closes (log 8). -/
def Obligations.PlacedInstructionRunsNext : Prop :=
  ∀ (s : State) (i : Instr), s.memWf →
    step (s.withFetchWord 16 (encodeWord i).toNat) =
      exec i { s.withFetchWord 16 (encodeWord i).toNat with loadable := false }

/-! ## The step, failures and the host's actions -/

/-- The step (spec/30_encoding.md section 1, spec/60_exceptions.md section 6). With nothing scheduled, a running machine
whose fetched word decodes to `i` does `exec i`; what the model adds around it is only that the boot order then admits
no `Load` (log 8). With an action scheduled (log 3), the step is that action, taken off the schedule. -/
def Obligations.StepRunsDecodedInstruction : Prop :=
  (∀ (s : State) (i : Instr), s.pending = [] → s.status = .running → decodeWord s.fetch = .ok i →
    step s = exec i { s with loadable := false }) ∧
  (∀ (s : State) (i : Instr) (rest : List AtomicAction), s.pending = .step :: rest → s.status = .running →
    decodeWord s.fetch = .ok i → step s = exec i { s with pending := rest, loadable := false }) ∧
  (∀ (s : State) (a : AtomicAction) (rest : List AtomicAction), s.pending = a :: rest →
    step s = { s with pending := rest }.act a)

/-- A word that matches no pattern fails by name, its address and itself on record, and nothing of it executes; so does
the first step of a reset machine with no program (spec/60_exceptions.md sections 1 and 2). That `pc` is not advanced is
the spec's decision D12, that the record holds the address and the word its D13, which words are unknown its D19 (log 15);
that the failure is a next state, and the model's `loadable`, are the model's choices (log 9, log 8). -/
def Obligations.UnknownWordFails : Prop :=
  (∀ (s : State) (r : Reject), s.pending = [] → s.status = .running → decodeWord s.fetch = .error r →
    step s = .next { s with
      status := .failed (.inCycle .unknownOpcode s.pc s.fetch), loadable := false }) ∧
  step State.reset = .next { State.reset with
    status := .failed (.inCycle .unknownOpcode 0x0200#16 0x0000#16), loadable := false }

/-- Failures are precise (spec/60_exceptions.md section 2; `pc` not advanced is the spec's decisions D12 and D32):
whenever a cycle of a running machine ends FAILED, everything is as before the cycle but `status` and `err`, and the
record holds the failing instruction's address and word (the spec's decision D13, log 15). That the failure is a next
state, and the model's `loadable`, which closes, are the model's choices (log 9, log 8). -/
def Obligations.FailuresArePrecise : Prop :=
  ∀ (s t : State) (e : ErrRecord), s.pending = [] → s.status = .running → step s = .next t → t.status = .failed e →
    ∃ kind, e = .inCycle kind s.pc s.fetch ∧ t = { s with status := .failed e, loadable := false }

/-- WAIT_KEY (spec/60_exceptions.md section 5; the hold is the spec's decision D15, the key event's rule its D16, the tick
in every status its D17): a step changes nothing, a tick only the timers, `Reset` ends the wait, and a key event completes
it. -/
def Obligations.WaitHoldsUntilKey : Prop :=
  ∀ (s : State) (x : Nibble), s.status = .waitKey x →
    s.act .step = .next s ∧
    (∃ t, s.act .tick = .next t ∧ Frame [] [.dt, .st] [] s t) ∧
    (∃ t, s.act .reset = .next t ∧ t.status = .running) ∧
    (∀ k, ∃ t, s.act (.keyEvent k) = .next t ∧ t.status = .running ∧ (t.readV x).toNat = k.toNat ∧
      Frame [x] [.status] [] s t)

/-- FAILED absorbs (spec/60_exceptions.md section 2, the spec's decision D14; the tick in every status is its D17): a
step and a key event change nothing, a tick only the timers, only `Reset` leaves it; and the driver's view reports it as
a fault with its record (log 9). -/
def Obligations.FailedAbsorbsUntilReset : Prop :=
  ∀ (s : State) (e : ErrRecord), s.status = .failed e →
    s.act .step = .next s ∧ (∀ k, s.act (.keyEvent k) = .next s) ∧
    (∃ t, s.act .tick = .next t ∧ Frame [] [.dt, .st] [] s t) ∧
    (∃ t, s.act .reset = .next t ∧ t.status = .running) ∧
    (s.pending = [] → driverStep s = .fault (.failed e))

/-- `Tick` (spec/60_exceptions.md section 4): in every status each timer above 0 counts down by one, a timer at 0 stays,
and nothing else changes. That it acts in every status is the spec's decision D17. -/
def Obligations.TickCountsTimersDown : Prop :=
  ∀ s : State, ∃ t, s.act .tick = .next t ∧ t.dt.toNat = s.dt.toNat - 1 ∧ t.st.toNat = s.st.toNat - 1 ∧
    Frame [] [.dt, .st] [] s t

/-- A key event that finds the machine not waiting is dropped: no state changes (spec/60_exceptions.md section 5, the
spec's decision D16). -/
def Obligations.KeyEventDroppedUnlessWaiting : Prop :=
  ∀ (s : State) (k : Nibble), (∀ x, s.status ≠ .waitKey x) → s.act (.keyEvent k) = .next s

/-- `Reset` in any state gives the reset state (spec/70_reset_and_hazards.md section 1, the spec's decision D27); the
model's counters of free values and the schedule go on (log 1, log 2, log 3). -/
def Obligations.ResetFromAnyState : Prop :=
  ∀ s : State, s.act .reset = .next { State.reset with
    randDraws := s.randDraws, keyDraws := s.keyDraws, pending := s.pending }

/-- The reset values (the table of spec/10_state.md section 7): everything 0, `pc` at 0x0200, the font where FONT_BASE
says, and the status running. The status is the spec's decision D23, FONT_BASE and FONT_DATA are the model's parameters
at the spec's defaults (log 6, log 7). -/
def Obligations.ResetValuesOfTheSpec : Prop :=
  (∀ x, State.reset.readV x = 0x00#8) ∧ State.reset.i = 0x0000#16 ∧ State.reset.pc = 0x0200#16 ∧
  (∀ k, k < 16 → State.reset.stack[k]? = some 0x0000#16) ∧ State.reset.sp.val = 0 ∧ State.reset.dt = 0x00#8 ∧
  State.reset.st = 0x00#8 ∧ State.reset.tone = false ∧ State.reset.status = .running ∧
  (∀ k, k < 80 → Config.fontData[k]? = some (State.reset.readByte (Config.fontBase + k))) ∧
  (∀ a, a < 4096 → (a < Config.fontBase ∨ Config.fontBase + 80 ≤ a) → State.reset.readByte a = 0x00#8) ∧
  (∀ (x : Fin 64) (y : Fin 32), State.reset.pixelAt x y = false)

/-- `Load` (spec/70_reset_and_hazards.md section 2; what a rejected load leaves is the spec's decision D24, its record
D13): where the boot order admits it, an image of at most 3584 bytes is written from 0x200 on and nothing else of the
spec's state changes, and a longer one writes nothing and fails (a next state, log 9). Where the boot order does not, the
model refuses it (log 8). -/
def Obligations.LoadWritesImageOrFails : Prop :=
  ∀ (s : State) (image : List Byte),
    (s.loadable = true → image.length ≤ 3584 → ∃ t, s.act (.load image) = .next t ∧
      (s.memWf → ∀ k, k < image.length → image[k]? = some (t.readByte (0x200 + k))) ∧ t.loadable = false ∧
      Frame [] [.loadable] (byteAddrs 0x200 image.length) s t) ∧
    (s.loadable = true → 3584 < image.length →
      s.act (.load image) = .next { s with status := .failed .programTooLarge, loadable := false }) ∧
    (s.loadable = false → s.act (.load image) = .refused .loadOutOfOrder)

/-! ## The whole machine -/

/-- Every instruction answers a next state in every state, and so does every step with nothing scheduled: none ends in a
fault or a refusal of the model. It does not say that the instruction succeeds: a call at `SP = 16`, a return at `SP = 0`
and an unknown word answer a state whose `status` is FAILED, and `Fx0A` one that waits (the spec's decision D15). That a
failure is a next state, and not the fault that spec/60_exceptions.md section 2 advises, is the model's choice (log 9). -/
def Obligations.EveryInstructionAnswersNextState : Prop :=
  (∀ (i : Instr) (s : State), ∃ t, exec i s = .next t) ∧
  (∀ s : State, s.pending = [] → ∃ t, step s = .next t)

/-- `VF` changes only by the six flag-writing instructions or as a plain destination, and the six leave 0 or 1 in it
(spec/10_state.md section 1; that the flag is written last, so also where `VF` is the destination, is the spec's decision
D9). -/
def Obligations.OnlySixInstructionsWriteTheFlag : Prop :=
  ∀ (i : Instr) (s t : State), exec i s = .next t →
    (t.readV 0xF#4 ≠ s.readV 0xF#4 → writesFlag i ∨ destIsVF i) ∧
    (writesFlag i → t.readV 0xF#4 = 0x00#8 ∨ t.readV 0xF#4 = 0x01#8)

/-- Each storage space, `I` and each timer changes only by its own instructions (spec/10_state.md sections 2 to 5 and 8;
spec/90_conflicts.md C1: no instruction but `Fx15` and `Fx18` touches a timer). `I` is written by `Annn`, `Fx1E` and
`Fx29` (section 2); that no access changes it is the spec's decision D10; that a return leaves the stack's cells alone
is its decision D11 (log 15). -/
def Obligations.StorageHasItsOwnInstructions : Prop :=
  ∀ (i : Instr) (s t : State), exec i s = .next t →
    (t.stack ≠ s.stack → ∃ nnn, i = .call nnn) ∧
    (t.sp ≠ s.sp → i = .ret ∨ ∃ nnn, i = .call nnn) ∧
    (t.fb ≠ s.fb → i = .cls ∨ ∃ x y n, i = .drw x y n) ∧
    ((∃ a, t.readByte a ≠ s.readByte a) → ∃ x, i = .ldB x ∨ i = .stRegs x) ∧
    (t.i ≠ s.i → (∃ nnn, i = .ldI nnn) ∨ ∃ x, i = .addI x ∨ i = .ldF x) ∧
    (t.dt ≠ s.dt → ∃ x, i = .ldDtVx x) ∧
    (t.st ≠ s.st → ∃ x, i = .ldStVx x)

/-- Only the ten instructions that spec/10_state.md section 2 names write `pc` other than by the fetch advance: after any
other, `pc` is the instruction's address plus 2. -/
def Obligations.OnlyTenInstructionsWritePc : Prop :=
  ∀ (i : Instr) (s t : State), exec i s = .next t → ¬ writesPc i → t.pc = s.pc + 2#16

/-- "No instruction reads it" (spec/10_state.md section 4): what an instruction does to everything but the sound timer
does not depend on the sound timer. -/
def Obligations.SoundTimerIsNotRead : Prop :=
  ∀ (i : Instr) (s t : State) (b : Byte), exec i s = .next t →
    ∃ u, exec i { s with st := b } = .next u ∧ { u with st := 0x00#8 } = { t with st := 0x00#8 }

/-! ## Invariants -/

/-- Memory keeps its canonical form, 4096 bytes each listed at most once, over every step of every state that has it
(spec/10_state.md section 8: "memory has exactly 4096 bytes"; the form itself is the model's representation, log 16). -/
def Obligations.StepKeepsMemoryCanonical : Prop :=
  ∀ s t : State, s.memWf → step s = .next t → t.memWf

/-- The error record stays true: in every state a step reaches from one where it is true, a FAILED state's record names
the `pc` it is frozen at, the word fetched there and a cause that holds there, and a suspended or failed machine admits
no `Load` (spec/60_exceptions.md section 2; `pc` not advanced is the spec's decision D12, the record's content its D13,
absorption its D14; `Load`'s part is log 8). -/
def Obligations.StepKeepsErrorRecordTrue : Prop :=
  ∀ s t : State, s.errTrue → step s = .next t → t.errTrue

/-- The reset state has both invariants (the memory's form is the model's representation, log 16). -/
def Obligations.ResetHasTheInvariants : Prop :=
  State.reset.memWf ∧ State.reset.errTrue
end

