-- ==== Sys2Proof/Laws/Decode.lean ====
section
/-! SUPPORT. The fields of an assembled word, and a word as its fields: what the encoder writes the decoder reads. -/

namespace Sys2Proof

theorem toNat_fieldOp (w : Word) : (fieldOp w).toNat = w.toNat / 4096 := by
  have := w.isLt
  simp [fieldOp, BitVec.extractLsb'_toNat, Nat.shiftRight_eq_div_pow]; omega

theorem toNat_fieldX (w : Word) : (fieldX w).toNat = w.toNat / 256 % 16 := by
  simp [fieldX, BitVec.extractLsb'_toNat, Nat.shiftRight_eq_div_pow]

theorem toNat_fieldY (w : Word) : (fieldY w).toNat = w.toNat / 16 % 16 := by
  simp [fieldY, BitVec.extractLsb'_toNat, Nat.shiftRight_eq_div_pow]

theorem toNat_fieldN (w : Word) : (fieldN w).toNat = w.toNat % 16 := by
  simp [fieldN, BitVec.extractLsb'_toNat]

theorem toNat_fieldKk (w : Word) : (fieldKk w).toNat = w.toNat % 256 := by
  simp [fieldKk, BitVec.extractLsb'_toNat]

theorem toNat_fieldNnn (w : Word) : (fieldNnn w).toNat = w.toNat % 4096 := by
  simp [fieldNnn, BitVec.extractLsb'_toNat]

theorem toNat_append_eq {m n : Nat} (a : BitVec m) (b : BitVec n) :
    (a ++ b).toNat = a.toNat * 2 ^ n + b.toNat := by
  rw [BitVec.toNat_append, ← Nat.shiftLeft_add_eq_or_of_lt b.isLt, Nat.shiftLeft_eq]

theorem toNat_formatXkk (op x : Nibble) (kk : Byte) :
    (formatXkk op x kk).toNat = op.toNat * 4096 + x.toNat * 256 + kk.toNat := by
  have : (formatXkk op x kk).toNat = (op ++ x ++ kk).toNat := rfl
  rw [this, toNat_append_eq, toNat_append_eq]; omega

theorem toNat_formatXyn (op x y n : Nibble) :
    (formatXyn op x y n).toNat = op.toNat * 4096 + x.toNat * 256 + y.toNat * 16 + n.toNat := by
  have : (formatXyn op x y n).toNat = (op ++ x ++ y ++ n).toNat := rfl
  rw [this, toNat_append_eq, toNat_append_eq, toNat_append_eq]; omega

theorem toNat_formatNnn (op : Nibble) (nnn : Addr) :
    (formatNnn op nnn).toNat = op.toNat * 4096 + nnn.toNat := by
  have : (formatNnn op nnn).toNat = (op ++ nnn).toNat := rfl
  rw [this, toNat_append_eq]; omega

section Fields
variable (op x y n : Nibble) (kk : Byte) (nnn : Addr)

@[simp] theorem fieldOp_formatXkk : fieldOp (formatXkk op x kk) = op := by
  have := x.isLt; have := kk.isLt
  apply BitVec.eq_of_toNat_eq; rw [toNat_fieldOp, toNat_formatXkk]; omega
@[simp] theorem fieldX_formatXkk : fieldX (formatXkk op x kk) = x := by
  have := x.isLt; have := kk.isLt
  apply BitVec.eq_of_toNat_eq; rw [toNat_fieldX, toNat_formatXkk]; omega
@[simp] theorem fieldKk_formatXkk : fieldKk (formatXkk op x kk) = kk := by
  have := kk.isLt
  apply BitVec.eq_of_toNat_eq; rw [toNat_fieldKk, toNat_formatXkk]; omega
@[simp] theorem fieldOp_formatXyn : fieldOp (formatXyn op x y n) = op := by
  have := x.isLt; have := y.isLt; have := n.isLt
  apply BitVec.eq_of_toNat_eq; rw [toNat_fieldOp, toNat_formatXyn]; omega
@[simp] theorem fieldX_formatXyn : fieldX (formatXyn op x y n) = x := by
  have := x.isLt; have := y.isLt; have := n.isLt
  apply BitVec.eq_of_toNat_eq; rw [toNat_fieldX, toNat_formatXyn]; omega
@[simp] theorem fieldY_formatXyn : fieldY (formatXyn op x y n) = y := by
  have := y.isLt; have := n.isLt
  apply BitVec.eq_of_toNat_eq; rw [toNat_fieldY, toNat_formatXyn]; omega
@[simp] theorem fieldN_formatXyn : fieldN (formatXyn op x y n) = n := by
  have := n.isLt
  apply BitVec.eq_of_toNat_eq; rw [toNat_fieldN, toNat_formatXyn]; omega
@[simp] theorem fieldOp_formatNnn : fieldOp (formatNnn op nnn) = op := by
  have := nnn.isLt
  apply BitVec.eq_of_toNat_eq; rw [toNat_fieldOp, toNat_formatNnn]; omega
@[simp] theorem fieldNnn_formatNnn : fieldNnn (formatNnn op nnn) = nnn := by
  have := nnn.isLt
  apply BitVec.eq_of_toNat_eq; rw [toNat_fieldNnn, toNat_formatNnn]; omega

end Fields

/-- A word is its fields in the format XKK. -/
theorem formatXkk_fields (w : Word) : formatXkk (fieldOp w) (fieldX w) (fieldKk w) = w := by
  apply BitVec.eq_of_toNat_eq
  rw [toNat_formatXkk, toNat_fieldOp, toNat_fieldX, toNat_fieldKk]; omega

/-- A word is its fields in the format XYN. -/
theorem formatXyn_fields (w : Word) : formatXyn (fieldOp w) (fieldX w) (fieldY w) (fieldN w) = w := by
  apply BitVec.eq_of_toNat_eq
  rw [toNat_formatXyn, toNat_fieldOp, toNat_fieldX, toNat_fieldY, toNat_fieldN]; omega

/-- A word is its fields in the format NNN. -/
theorem formatNnn_fields (w : Word) : formatNnn (fieldOp w) (fieldNnn w) = w := by
  apply BitVec.eq_of_toNat_eq
  rw [toNat_formatNnn, toNat_fieldOp, toNat_fieldNnn]; omega

/-- The low byte is the two low nibbles. -/
theorem toNat_fieldKk_nibbles (w : Word) : (fieldKk w).toNat = (fieldY w).toNat * 16 + (fieldN w).toNat := by
  rw [toNat_fieldKk, toNat_fieldY, toNat_fieldN]; omega

/-- A word's two bytes, put together big-endian, are the word (R53). -/
@[simp] theorem wordOfBytes_hiByte_loByte (w : Word) : wordOfBytes (hiByte w) (loByte w) = w := by
  apply BitVec.eq_of_toNat_eq
  have : (wordOfBytes (hiByte w) (loByte w)).toNat = (hiByte w ++ loByte w).toNat := rfl
  have := w.isLt
  rw [‹(wordOfBytes _ _).toNat = _›, toNat_append_eq]
  simp [hiByte, loByte, BitVec.extractLsb'_toNat, Nat.shiftRight_eq_div_pow]; omega

theorem toNat_wordOfBytes (hi lo : Byte) : (wordOfBytes hi lo).toNat = hi.toNat * 256 + lo.toNat := by
  have : (wordOfBytes hi lo).toNat = (hi ++ lo).toNat := rfl
  rw [this, toNat_append_eq]; omega

@[simp] theorem hiByte_wordOfBytes (hi lo : Byte) : hiByte (wordOfBytes hi lo) = hi := by
  apply BitVec.eq_of_toNat_eq
  have := hi.isLt; have := lo.isLt
  simp [hiByte, BitVec.extractLsb'_toNat, Nat.shiftRight_eq_div_pow, toNat_wordOfBytes]; omega

@[simp] theorem loByte_wordOfBytes (hi lo : Byte) : loByte (wordOfBytes hi lo) = lo := by
  apply BitVec.eq_of_toNat_eq
  have := hi.isLt; have := lo.isLt
  simp [loByte, BitVec.extractLsb'_toNat, toNat_wordOfBytes]; omega

theorem formatXyn_and (a b c d a' b' c' d' : Nibble) :
    formatXyn a b c d &&& formatXyn a' b' c' d' = formatXyn (a &&& a') (b &&& b') (c &&& c') (d &&& d') := by
  show (a ++ b ++ c ++ d) &&& (a' ++ b' ++ c' ++ d') = (a &&& a') ++ (b &&& b') ++ (c &&& c') ++ (d &&& d')
  rw [BitVec.and_append, BitVec.and_append, BitVec.and_append]

section Masks
variable (w : Word)

theorem nibble_and_F (a : Nibble) : a &&& 0xF#4 = a := BitVec.and_allOnes

/-- The mask of a row selected by the top nibble (R77). -/
theorem and_F000 : w &&& 0xF000#16 = formatXyn (fieldOp w) 0#4 0#4 0#4 := by
  have := formatXyn_and (fieldOp w) (fieldX w) (fieldY w) (fieldN w) 0xF#4 0#4 0#4 0#4
  rwa [formatXyn_fields, nibble_and_F, BitVec.and_zero, BitVec.and_zero, BitVec.and_zero] at this

/-- The mask of a row selected by the top and the low nibble (R77). -/
theorem and_F00F : w &&& 0xF00F#16 = formatXyn (fieldOp w) 0#4 0#4 (fieldN w) := by
  have := formatXyn_and (fieldOp w) (fieldX w) (fieldY w) (fieldN w) 0xF#4 0#4 0#4 0xF#4
  rwa [formatXyn_fields, nibble_and_F, nibble_and_F, BitVec.and_zero, BitVec.and_zero] at this

/-- The mask of a row selected by the top nibble and the low byte (R77). -/
theorem and_F0FF : w &&& 0xF0FF#16 = formatXyn (fieldOp w) 0#4 (fieldY w) (fieldN w) := by
  have := formatXyn_and (fieldOp w) (fieldX w) (fieldY w) (fieldN w) 0xF#4 0#4 0xF#4 0xF#4
  rwa [formatXyn_fields, nibble_and_F, nibble_and_F, nibble_and_F, BitVec.and_zero] at this

end Masks

/-- The last arm of the decoder's dispatch is family F. -/
theorem nibble_eq_F : ∀ a : Nibble, a ≠ 0x0#4 → a ≠ 0x1#4 → a ≠ 0x2#4 → a ≠ 0x3#4 → a ≠ 0x4#4 →
    a ≠ 0x5#4 → a ≠ 0x6#4 → a ≠ 0x7#4 → a ≠ 0x8#4 → a ≠ 0x9#4 →
    a ≠ 0xA#4 → a ≠ 0xB#4 → a ≠ 0xC#4 → a ≠ 0xD#4 → a ≠ 0xE#4 → a = 0xF#4 := by
  intros; bv_omega

/-- What the decoder can reject a word with: only as unknown, and naming that word. -/
theorem decodeWord_error {w : Word} {r : Reject} (h : decodeWord w = .error r) : r = .unknownOpcode w := by
  unfold decodeWord at h
  split at h <;> (try unfold decodeFamily0 at h) <;> (try unfold decodeFamily8 at h) <;>
    (try unfold decodeFamilyE at h) <;> (try unfold decodeFamilyF at h) <;>
    (try split at h) <;> (try split at h) <;> simp_all

end Sys2Proof
end

