-- ==== Sys2Proof/Laws/State.lean ====
section
/-! SUPPORT. The fields of the state after each named update: one lemma a field and update. -/

namespace Sys2Proof.Machine

section -- writeByte

@[simp] theorem State.writeByte_v (s : State) (a : Nat) (b : Byte) : (s.writeByte a b).v = s.v := rfl
@[simp] theorem State.writeByte_i (s : State) (a : Nat) (b : Byte) : (s.writeByte a b).i = s.i := rfl
@[simp] theorem State.writeByte_pc (s : State) (a : Nat) (b : Byte) : (s.writeByte a b).pc = s.pc := rfl
@[simp] theorem State.writeByte_stack (s : State) (a : Nat) (b : Byte) : (s.writeByte a b).stack = s.stack := rfl
@[simp] theorem State.writeByte_sp (s : State) (a : Nat) (b : Byte) : (s.writeByte a b).sp = s.sp := rfl
@[simp] theorem State.writeByte_dt (s : State) (a : Nat) (b : Byte) : (s.writeByte a b).dt = s.dt := rfl
@[simp] theorem State.writeByte_st (s : State) (a : Nat) (b : Byte) : (s.writeByte a b).st = s.st := rfl
@[simp] theorem State.writeByte_mem (s : State) (a : Nat) (b : Byte) : (s.writeByte a b).mem = Memory.write s.mem (effAddr a) b := rfl
@[simp] theorem State.writeByte_fb (s : State) (a : Nat) (b : Byte) : (s.writeByte a b).fb = s.fb := rfl
@[simp] theorem State.writeByte_status (s : State) (a : Nat) (b : Byte) : (s.writeByte a b).status = s.status := rfl
@[simp] theorem State.writeByte_randDraws (s : State) (a : Nat) (b : Byte) : (s.writeByte a b).randDraws = s.randDraws := rfl
@[simp] theorem State.writeByte_keyDraws (s : State) (a : Nat) (b : Byte) : (s.writeByte a b).keyDraws = s.keyDraws := rfl
@[simp] theorem State.writeByte_pending (s : State) (a : Nat) (b : Byte) : (s.writeByte a b).pending = s.pending := rfl
@[simp] theorem State.writeByte_loadable (s : State) (a : Nat) (b : Byte) : (s.writeByte a b).loadable = s.loadable := rfl

end

section -- writeV

@[simp] theorem State.writeV_v (s : State) (x : Nibble) (b : Byte) : (s.writeV x b).v = s.v.set x.toNat b x.isLt := rfl
@[simp] theorem State.writeV_i (s : State) (x : Nibble) (b : Byte) : (s.writeV x b).i = s.i := rfl
@[simp] theorem State.writeV_pc (s : State) (x : Nibble) (b : Byte) : (s.writeV x b).pc = s.pc := rfl
@[simp] theorem State.writeV_stack (s : State) (x : Nibble) (b : Byte) : (s.writeV x b).stack = s.stack := rfl
@[simp] theorem State.writeV_sp (s : State) (x : Nibble) (b : Byte) : (s.writeV x b).sp = s.sp := rfl
@[simp] theorem State.writeV_dt (s : State) (x : Nibble) (b : Byte) : (s.writeV x b).dt = s.dt := rfl
@[simp] theorem State.writeV_st (s : State) (x : Nibble) (b : Byte) : (s.writeV x b).st = s.st := rfl
@[simp] theorem State.writeV_mem (s : State) (x : Nibble) (b : Byte) : (s.writeV x b).mem = s.mem := rfl
@[simp] theorem State.writeV_fb (s : State) (x : Nibble) (b : Byte) : (s.writeV x b).fb = s.fb := rfl
@[simp] theorem State.writeV_status (s : State) (x : Nibble) (b : Byte) : (s.writeV x b).status = s.status := rfl
@[simp] theorem State.writeV_randDraws (s : State) (x : Nibble) (b : Byte) : (s.writeV x b).randDraws = s.randDraws := rfl
@[simp] theorem State.writeV_keyDraws (s : State) (x : Nibble) (b : Byte) : (s.writeV x b).keyDraws = s.keyDraws := rfl
@[simp] theorem State.writeV_pending (s : State) (x : Nibble) (b : Byte) : (s.writeV x b).pending = s.pending := rfl
@[simp] theorem State.writeV_loadable (s : State) (x : Nibble) (b : Byte) : (s.writeV x b).loadable = s.loadable := rfl

end

section -- setI

@[simp] theorem State.setI_v (s : State) (a : Word) : (s.setI a).v = s.v := rfl
@[simp] theorem State.setI_i (s : State) (a : Word) : (s.setI a).i = a := rfl
@[simp] theorem State.setI_pc (s : State) (a : Word) : (s.setI a).pc = s.pc := rfl
@[simp] theorem State.setI_stack (s : State) (a : Word) : (s.setI a).stack = s.stack := rfl
@[simp] theorem State.setI_sp (s : State) (a : Word) : (s.setI a).sp = s.sp := rfl
@[simp] theorem State.setI_dt (s : State) (a : Word) : (s.setI a).dt = s.dt := rfl
@[simp] theorem State.setI_st (s : State) (a : Word) : (s.setI a).st = s.st := rfl
@[simp] theorem State.setI_mem (s : State) (a : Word) : (s.setI a).mem = s.mem := rfl
@[simp] theorem State.setI_fb (s : State) (a : Word) : (s.setI a).fb = s.fb := rfl
@[simp] theorem State.setI_status (s : State) (a : Word) : (s.setI a).status = s.status := rfl
@[simp] theorem State.setI_randDraws (s : State) (a : Word) : (s.setI a).randDraws = s.randDraws := rfl
@[simp] theorem State.setI_keyDraws (s : State) (a : Word) : (s.setI a).keyDraws = s.keyDraws := rfl
@[simp] theorem State.setI_pending (s : State) (a : Word) : (s.setI a).pending = s.pending := rfl
@[simp] theorem State.setI_loadable (s : State) (a : Word) : (s.setI a).loadable = s.loadable := rfl

end

section -- jump

@[simp] theorem State.jump_v (s : State) (a : Word) : (s.jump a).v = s.v := rfl
@[simp] theorem State.jump_i (s : State) (a : Word) : (s.jump a).i = s.i := rfl
@[simp] theorem State.jump_pc (s : State) (a : Word) : (s.jump a).pc = a := rfl
@[simp] theorem State.jump_stack (s : State) (a : Word) : (s.jump a).stack = s.stack := rfl
@[simp] theorem State.jump_sp (s : State) (a : Word) : (s.jump a).sp = s.sp := rfl
@[simp] theorem State.jump_dt (s : State) (a : Word) : (s.jump a).dt = s.dt := rfl
@[simp] theorem State.jump_st (s : State) (a : Word) : (s.jump a).st = s.st := rfl
@[simp] theorem State.jump_mem (s : State) (a : Word) : (s.jump a).mem = s.mem := rfl
@[simp] theorem State.jump_fb (s : State) (a : Word) : (s.jump a).fb = s.fb := rfl
@[simp] theorem State.jump_status (s : State) (a : Word) : (s.jump a).status = s.status := rfl
@[simp] theorem State.jump_randDraws (s : State) (a : Word) : (s.jump a).randDraws = s.randDraws := rfl
@[simp] theorem State.jump_keyDraws (s : State) (a : Word) : (s.jump a).keyDraws = s.keyDraws := rfl
@[simp] theorem State.jump_pending (s : State) (a : Word) : (s.jump a).pending = s.pending := rfl
@[simp] theorem State.jump_loadable (s : State) (a : Word) : (s.jump a).loadable = s.loadable := rfl

end

section -- advance

@[simp] theorem State.advance_v (s : State) : (s.advance).v = s.v := rfl
@[simp] theorem State.advance_i (s : State) : (s.advance).i = s.i := rfl
@[simp] theorem State.advance_pc (s : State) : (s.advance).pc = s.pc + 2#16 := rfl
@[simp] theorem State.advance_stack (s : State) : (s.advance).stack = s.stack := rfl
@[simp] theorem State.advance_sp (s : State) : (s.advance).sp = s.sp := rfl
@[simp] theorem State.advance_dt (s : State) : (s.advance).dt = s.dt := rfl
@[simp] theorem State.advance_st (s : State) : (s.advance).st = s.st := rfl
@[simp] theorem State.advance_mem (s : State) : (s.advance).mem = s.mem := rfl
@[simp] theorem State.advance_fb (s : State) : (s.advance).fb = s.fb := rfl
@[simp] theorem State.advance_status (s : State) : (s.advance).status = s.status := rfl
@[simp] theorem State.advance_randDraws (s : State) : (s.advance).randDraws = s.randDraws := rfl
@[simp] theorem State.advance_keyDraws (s : State) : (s.advance).keyDraws = s.keyDraws := rfl
@[simp] theorem State.advance_pending (s : State) : (s.advance).pending = s.pending := rfl
@[simp] theorem State.advance_loadable (s : State) : (s.advance).loadable = s.loadable := rfl

end

section -- push

@[simp] theorem State.push_v (s : State) (a : Word) (h : s.sp.val < 16) : (s.push a h).v = s.v := rfl
@[simp] theorem State.push_i (s : State) (a : Word) (h : s.sp.val < 16) : (s.push a h).i = s.i := rfl
@[simp] theorem State.push_pc (s : State) (a : Word) (h : s.sp.val < 16) : (s.push a h).pc = s.pc := rfl
@[simp] theorem State.push_stack (s : State) (a : Word) (h : s.sp.val < 16) : (s.push a h).stack = s.stack.set s.sp.val a h := rfl
@[simp] theorem State.push_sp (s : State) (a : Word) (h : s.sp.val < 16) : (s.push a h).sp = ⟨s.sp.val + 1, by omega⟩ := rfl
@[simp] theorem State.push_dt (s : State) (a : Word) (h : s.sp.val < 16) : (s.push a h).dt = s.dt := rfl
@[simp] theorem State.push_st (s : State) (a : Word) (h : s.sp.val < 16) : (s.push a h).st = s.st := rfl
@[simp] theorem State.push_mem (s : State) (a : Word) (h : s.sp.val < 16) : (s.push a h).mem = s.mem := rfl
@[simp] theorem State.push_fb (s : State) (a : Word) (h : s.sp.val < 16) : (s.push a h).fb = s.fb := rfl
@[simp] theorem State.push_status (s : State) (a : Word) (h : s.sp.val < 16) : (s.push a h).status = s.status := rfl
@[simp] theorem State.push_randDraws (s : State) (a : Word) (h : s.sp.val < 16) : (s.push a h).randDraws = s.randDraws := rfl
@[simp] theorem State.push_keyDraws (s : State) (a : Word) (h : s.sp.val < 16) : (s.push a h).keyDraws = s.keyDraws := rfl
@[simp] theorem State.push_pending (s : State) (a : Word) (h : s.sp.val < 16) : (s.push a h).pending = s.pending := rfl
@[simp] theorem State.push_loadable (s : State) (a : Word) (h : s.sp.val < 16) : (s.push a h).loadable = s.loadable := rfl

end

section -- drop

@[simp] theorem State.drop_v (s : State) : (s.drop).v = s.v := rfl
@[simp] theorem State.drop_i (s : State) : (s.drop).i = s.i := rfl
@[simp] theorem State.drop_pc (s : State) : (s.drop).pc = s.pc := rfl
@[simp] theorem State.drop_stack (s : State) : (s.drop).stack = s.stack := rfl
@[simp] theorem State.drop_sp (s : State) : (s.drop).sp = ⟨s.sp.val - 1, by omega⟩ := rfl
@[simp] theorem State.drop_dt (s : State) : (s.drop).dt = s.dt := rfl
@[simp] theorem State.drop_st (s : State) : (s.drop).st = s.st := rfl
@[simp] theorem State.drop_mem (s : State) : (s.drop).mem = s.mem := rfl
@[simp] theorem State.drop_fb (s : State) : (s.drop).fb = s.fb := rfl
@[simp] theorem State.drop_status (s : State) : (s.drop).status = s.status := rfl
@[simp] theorem State.drop_randDraws (s : State) : (s.drop).randDraws = s.randDraws := rfl
@[simp] theorem State.drop_keyDraws (s : State) : (s.drop).keyDraws = s.keyDraws := rfl
@[simp] theorem State.drop_pending (s : State) : (s.drop).pending = s.pending := rfl
@[simp] theorem State.drop_loadable (s : State) : (s.drop).loadable = s.loadable := rfl

end

section -- raise

@[simp] theorem State.raise_v (s : State) (k : FailureKind) (w : Word) : (s.raise k w).v = s.v := rfl
@[simp] theorem State.raise_i (s : State) (k : FailureKind) (w : Word) : (s.raise k w).i = s.i := rfl
@[simp] theorem State.raise_pc (s : State) (k : FailureKind) (w : Word) : (s.raise k w).pc = s.pc := rfl
@[simp] theorem State.raise_stack (s : State) (k : FailureKind) (w : Word) : (s.raise k w).stack = s.stack := rfl
@[simp] theorem State.raise_sp (s : State) (k : FailureKind) (w : Word) : (s.raise k w).sp = s.sp := rfl
@[simp] theorem State.raise_dt (s : State) (k : FailureKind) (w : Word) : (s.raise k w).dt = s.dt := rfl
@[simp] theorem State.raise_st (s : State) (k : FailureKind) (w : Word) : (s.raise k w).st = s.st := rfl
@[simp] theorem State.raise_mem (s : State) (k : FailureKind) (w : Word) : (s.raise k w).mem = s.mem := rfl
@[simp] theorem State.raise_fb (s : State) (k : FailureKind) (w : Word) : (s.raise k w).fb = s.fb := rfl
@[simp] theorem State.raise_status (s : State) (k : FailureKind) (w : Word) : (s.raise k w).status = .failed (.inCycle k s.pc w) := rfl
@[simp] theorem State.raise_randDraws (s : State) (k : FailureKind) (w : Word) : (s.raise k w).randDraws = s.randDraws := rfl
@[simp] theorem State.raise_keyDraws (s : State) (k : FailureKind) (w : Word) : (s.raise k w).keyDraws = s.keyDraws := rfl
@[simp] theorem State.raise_pending (s : State) (k : FailureKind) (w : Word) : (s.raise k w).pending = s.pending := rfl
@[simp] theorem State.raise_loadable (s : State) (k : FailureKind) (w : Word) : (s.raise k w).loadable = s.loadable := rfl

end

section -- countKey

@[simp] theorem State.countKey_v (s : State) : (s.countKey).v = s.v := rfl
@[simp] theorem State.countKey_i (s : State) : (s.countKey).i = s.i := rfl
@[simp] theorem State.countKey_pc (s : State) : (s.countKey).pc = s.pc := rfl
@[simp] theorem State.countKey_stack (s : State) : (s.countKey).stack = s.stack := rfl
@[simp] theorem State.countKey_sp (s : State) : (s.countKey).sp = s.sp := rfl
@[simp] theorem State.countKey_dt (s : State) : (s.countKey).dt = s.dt := rfl
@[simp] theorem State.countKey_st (s : State) : (s.countKey).st = s.st := rfl
@[simp] theorem State.countKey_mem (s : State) : (s.countKey).mem = s.mem := rfl
@[simp] theorem State.countKey_fb (s : State) : (s.countKey).fb = s.fb := rfl
@[simp] theorem State.countKey_status (s : State) : (s.countKey).status = s.status := rfl
@[simp] theorem State.countKey_randDraws (s : State) : (s.countKey).randDraws = s.randDraws := rfl
@[simp] theorem State.countKey_keyDraws (s : State) : (s.countKey).keyDraws = s.keyDraws + 1 := rfl
@[simp] theorem State.countKey_pending (s : State) : (s.countKey).pending = s.pending := rfl
@[simp] theorem State.countKey_loadable (s : State) : (s.countKey).loadable = s.loadable := rfl

end

section -- countRand

@[simp] theorem State.countRand_v (s : State) : (s.countRand).v = s.v := rfl
@[simp] theorem State.countRand_i (s : State) : (s.countRand).i = s.i := rfl
@[simp] theorem State.countRand_pc (s : State) : (s.countRand).pc = s.pc := rfl
@[simp] theorem State.countRand_stack (s : State) : (s.countRand).stack = s.stack := rfl
@[simp] theorem State.countRand_sp (s : State) : (s.countRand).sp = s.sp := rfl
@[simp] theorem State.countRand_dt (s : State) : (s.countRand).dt = s.dt := rfl
@[simp] theorem State.countRand_st (s : State) : (s.countRand).st = s.st := rfl
@[simp] theorem State.countRand_mem (s : State) : (s.countRand).mem = s.mem := rfl
@[simp] theorem State.countRand_fb (s : State) : (s.countRand).fb = s.fb := rfl
@[simp] theorem State.countRand_status (s : State) : (s.countRand).status = s.status := rfl
@[simp] theorem State.countRand_randDraws (s : State) : (s.countRand).randDraws = s.randDraws + 1 := rfl
@[simp] theorem State.countRand_keyDraws (s : State) : (s.countRand).keyDraws = s.keyDraws := rfl
@[simp] theorem State.countRand_pending (s : State) : (s.countRand).pending = s.pending := rfl
@[simp] theorem State.countRand_loadable (s : State) : (s.countRand).loadable = s.loadable := rfl

end

section -- writeResult

@[simp] theorem State.writeResult_v (s : State) (x : Nibble) (r f : Byte) : (s.writeResult x r f).v = (s.v.set x.toNat r x.isLt).set vf.toNat f vf.isLt := rfl
@[simp] theorem State.writeResult_i (s : State) (x : Nibble) (r f : Byte) : (s.writeResult x r f).i = s.i := rfl
@[simp] theorem State.writeResult_pc (s : State) (x : Nibble) (r f : Byte) : (s.writeResult x r f).pc = s.pc := rfl
@[simp] theorem State.writeResult_stack (s : State) (x : Nibble) (r f : Byte) : (s.writeResult x r f).stack = s.stack := rfl
@[simp] theorem State.writeResult_sp (s : State) (x : Nibble) (r f : Byte) : (s.writeResult x r f).sp = s.sp := rfl
@[simp] theorem State.writeResult_dt (s : State) (x : Nibble) (r f : Byte) : (s.writeResult x r f).dt = s.dt := rfl
@[simp] theorem State.writeResult_st (s : State) (x : Nibble) (r f : Byte) : (s.writeResult x r f).st = s.st := rfl
@[simp] theorem State.writeResult_mem (s : State) (x : Nibble) (r f : Byte) : (s.writeResult x r f).mem = s.mem := rfl
@[simp] theorem State.writeResult_fb (s : State) (x : Nibble) (r f : Byte) : (s.writeResult x r f).fb = s.fb := rfl
@[simp] theorem State.writeResult_status (s : State) (x : Nibble) (r f : Byte) : (s.writeResult x r f).status = s.status := rfl
@[simp] theorem State.writeResult_randDraws (s : State) (x : Nibble) (r f : Byte) : (s.writeResult x r f).randDraws = s.randDraws := rfl
@[simp] theorem State.writeResult_keyDraws (s : State) (x : Nibble) (r f : Byte) : (s.writeResult x r f).keyDraws = s.keyDraws := rfl
@[simp] theorem State.writeResult_pending (s : State) (x : Nibble) (r f : Byte) : (s.writeResult x r f).pending = s.pending := rfl
@[simp] theorem State.writeResult_loadable (s : State) (x : Nibble) (r f : Byte) : (s.writeResult x r f).loadable = s.loadable := rfl

end

section -- clearDisplay

@[simp] theorem State.clearDisplay_v (s : State) : (s.clearDisplay).v = s.v := rfl
@[simp] theorem State.clearDisplay_i (s : State) : (s.clearDisplay).i = s.i := rfl
@[simp] theorem State.clearDisplay_pc (s : State) : (s.clearDisplay).pc = s.pc := rfl
@[simp] theorem State.clearDisplay_stack (s : State) : (s.clearDisplay).stack = s.stack := rfl
@[simp] theorem State.clearDisplay_sp (s : State) : (s.clearDisplay).sp = s.sp := rfl
@[simp] theorem State.clearDisplay_dt (s : State) : (s.clearDisplay).dt = s.dt := rfl
@[simp] theorem State.clearDisplay_st (s : State) : (s.clearDisplay).st = s.st := rfl
@[simp] theorem State.clearDisplay_mem (s : State) : (s.clearDisplay).mem = s.mem := rfl
@[simp] theorem State.clearDisplay_fb (s : State) : (s.clearDisplay).fb = Framebuffer.dark := rfl
@[simp] theorem State.clearDisplay_status (s : State) : (s.clearDisplay).status = s.status := rfl
@[simp] theorem State.clearDisplay_randDraws (s : State) : (s.clearDisplay).randDraws = s.randDraws := rfl
@[simp] theorem State.clearDisplay_keyDraws (s : State) : (s.clearDisplay).keyDraws = s.keyDraws := rfl
@[simp] theorem State.clearDisplay_pending (s : State) : (s.clearDisplay).pending = s.pending := rfl
@[simp] theorem State.clearDisplay_loadable (s : State) : (s.clearDisplay).loadable = s.loadable := rfl

end

section -- takeDrawing

@[simp] theorem State.takeDrawing_v (s : State) (d : Drawing) : (s.takeDrawing d).v = s.v.set vf.toNat (flagByte d.2) vf.isLt := rfl
@[simp] theorem State.takeDrawing_i (s : State) (d : Drawing) : (s.takeDrawing d).i = s.i := rfl
@[simp] theorem State.takeDrawing_pc (s : State) (d : Drawing) : (s.takeDrawing d).pc = s.pc := rfl
@[simp] theorem State.takeDrawing_stack (s : State) (d : Drawing) : (s.takeDrawing d).stack = s.stack := rfl
@[simp] theorem State.takeDrawing_sp (s : State) (d : Drawing) : (s.takeDrawing d).sp = s.sp := rfl
@[simp] theorem State.takeDrawing_dt (s : State) (d : Drawing) : (s.takeDrawing d).dt = s.dt := rfl
@[simp] theorem State.takeDrawing_st (s : State) (d : Drawing) : (s.takeDrawing d).st = s.st := rfl
@[simp] theorem State.takeDrawing_mem (s : State) (d : Drawing) : (s.takeDrawing d).mem = s.mem := rfl
@[simp] theorem State.takeDrawing_fb (s : State) (d : Drawing) : (s.takeDrawing d).fb = d.1 := rfl
@[simp] theorem State.takeDrawing_status (s : State) (d : Drawing) : (s.takeDrawing d).status = s.status := rfl
@[simp] theorem State.takeDrawing_randDraws (s : State) (d : Drawing) : (s.takeDrawing d).randDraws = s.randDraws := rfl
@[simp] theorem State.takeDrawing_keyDraws (s : State) (d : Drawing) : (s.takeDrawing d).keyDraws = s.keyDraws := rfl
@[simp] theorem State.takeDrawing_pending (s : State) (d : Drawing) : (s.takeDrawing d).pending = s.pending := rfl
@[simp] theorem State.takeDrawing_loadable (s : State) (d : Drawing) : (s.takeDrawing d).loadable = s.loadable := rfl

end

section -- tick

@[simp] theorem State.tick_v (s : State) : (s.tick).v = s.v := rfl
@[simp] theorem State.tick_i (s : State) : (s.tick).i = s.i := rfl
@[simp] theorem State.tick_pc (s : State) : (s.tick).pc = s.pc := rfl
@[simp] theorem State.tick_stack (s : State) : (s.tick).stack = s.stack := rfl
@[simp] theorem State.tick_sp (s : State) : (s.tick).sp = s.sp := rfl
@[simp] theorem State.tick_dt (s : State) : (s.tick).dt = countDown s.dt := rfl
@[simp] theorem State.tick_st (s : State) : (s.tick).st = countDown s.st := rfl
@[simp] theorem State.tick_mem (s : State) : (s.tick).mem = s.mem := rfl
@[simp] theorem State.tick_fb (s : State) : (s.tick).fb = s.fb := rfl
@[simp] theorem State.tick_status (s : State) : (s.tick).status = s.status := rfl
@[simp] theorem State.tick_randDraws (s : State) : (s.tick).randDraws = s.randDraws := rfl
@[simp] theorem State.tick_keyDraws (s : State) : (s.tick).keyDraws = s.keyDraws := rfl
@[simp] theorem State.tick_pending (s : State) : (s.tick).pending = s.pending := rfl
@[simp] theorem State.tick_loadable (s : State) : (s.tick).loadable = s.loadable := rfl

end

section -- closeLoad

@[simp] theorem State.closeLoad_v (s : State) : (s.closeLoad).v = s.v := rfl
@[simp] theorem State.closeLoad_i (s : State) : (s.closeLoad).i = s.i := rfl
@[simp] theorem State.closeLoad_pc (s : State) : (s.closeLoad).pc = s.pc := rfl
@[simp] theorem State.closeLoad_stack (s : State) : (s.closeLoad).stack = s.stack := rfl
@[simp] theorem State.closeLoad_sp (s : State) : (s.closeLoad).sp = s.sp := rfl
@[simp] theorem State.closeLoad_dt (s : State) : (s.closeLoad).dt = s.dt := rfl
@[simp] theorem State.closeLoad_st (s : State) : (s.closeLoad).st = s.st := rfl
@[simp] theorem State.closeLoad_mem (s : State) : (s.closeLoad).mem = s.mem := rfl
@[simp] theorem State.closeLoad_fb (s : State) : (s.closeLoad).fb = s.fb := rfl
@[simp] theorem State.closeLoad_status (s : State) : (s.closeLoad).status = s.status := rfl
@[simp] theorem State.closeLoad_randDraws (s : State) : (s.closeLoad).randDraws = s.randDraws := rfl
@[simp] theorem State.closeLoad_keyDraws (s : State) : (s.closeLoad).keyDraws = s.keyDraws := rfl
@[simp] theorem State.closeLoad_pending (s : State) : (s.closeLoad).pending = s.pending := rfl
@[simp] theorem State.closeLoad_loadable (s : State) : (s.closeLoad).loadable = false := rfl

end

section -- skipIf: a conditional jump

@[simp] theorem State.skipIf_v (s : State) (c : Bool) : (s.skipIf c).v = s.v := by cases c <;> rfl
@[simp] theorem State.skipIf_i (s : State) (c : Bool) : (s.skipIf c).i = s.i := by cases c <;> rfl
@[simp] theorem State.skipIf_pc (s : State) (c : Bool) : (s.skipIf c).pc = if c then s.pc + 2#16 else s.pc := by cases c <;> rfl
@[simp] theorem State.skipIf_stack (s : State) (c : Bool) : (s.skipIf c).stack = s.stack := by cases c <;> rfl
@[simp] theorem State.skipIf_sp (s : State) (c : Bool) : (s.skipIf c).sp = s.sp := by cases c <;> rfl
@[simp] theorem State.skipIf_dt (s : State) (c : Bool) : (s.skipIf c).dt = s.dt := by cases c <;> rfl
@[simp] theorem State.skipIf_st (s : State) (c : Bool) : (s.skipIf c).st = s.st := by cases c <;> rfl
@[simp] theorem State.skipIf_mem (s : State) (c : Bool) : (s.skipIf c).mem = s.mem := by cases c <;> rfl
@[simp] theorem State.skipIf_fb (s : State) (c : Bool) : (s.skipIf c).fb = s.fb := by cases c <;> rfl
@[simp] theorem State.skipIf_status (s : State) (c : Bool) : (s.skipIf c).status = s.status := by cases c <;> rfl
@[simp] theorem State.skipIf_randDraws (s : State) (c : Bool) : (s.skipIf c).randDraws = s.randDraws := by cases c <;> rfl
@[simp] theorem State.skipIf_keyDraws (s : State) (c : Bool) : (s.skipIf c).keyDraws = s.keyDraws := by cases c <;> rfl
@[simp] theorem State.skipIf_pending (s : State) (c : Bool) : (s.skipIf c).pending = s.pending := by cases c <;> rfl
@[simp] theorem State.skipIf_loadable (s : State) (c : Bool) : (s.skipIf c).loadable = s.loadable := by cases c <;> rfl

end

section -- writeBytes

@[simp] theorem State.writeBytes_v (s : State) (a : Nat) (bs : List Byte) : (s.writeBytes a bs).v = s.v := by
  induction bs generalizing s a with
  | nil => rfl
  | cons b bs ih => exact ih _ _
@[simp] theorem State.writeBytes_i (s : State) (a : Nat) (bs : List Byte) : (s.writeBytes a bs).i = s.i := by
  induction bs generalizing s a with
  | nil => rfl
  | cons b bs ih => exact ih _ _
@[simp] theorem State.writeBytes_pc (s : State) (a : Nat) (bs : List Byte) : (s.writeBytes a bs).pc = s.pc := by
  induction bs generalizing s a with
  | nil => rfl
  | cons b bs ih => exact ih _ _
@[simp] theorem State.writeBytes_stack (s : State) (a : Nat) (bs : List Byte) : (s.writeBytes a bs).stack = s.stack := by
  induction bs generalizing s a with
  | nil => rfl
  | cons b bs ih => exact ih _ _
@[simp] theorem State.writeBytes_sp (s : State) (a : Nat) (bs : List Byte) : (s.writeBytes a bs).sp = s.sp := by
  induction bs generalizing s a with
  | nil => rfl
  | cons b bs ih => exact ih _ _
@[simp] theorem State.writeBytes_dt (s : State) (a : Nat) (bs : List Byte) : (s.writeBytes a bs).dt = s.dt := by
  induction bs generalizing s a with
  | nil => rfl
  | cons b bs ih => exact ih _ _
@[simp] theorem State.writeBytes_st (s : State) (a : Nat) (bs : List Byte) : (s.writeBytes a bs).st = s.st := by
  induction bs generalizing s a with
  | nil => rfl
  | cons b bs ih => exact ih _ _
@[simp] theorem State.writeBytes_fb (s : State) (a : Nat) (bs : List Byte) : (s.writeBytes a bs).fb = s.fb := by
  induction bs generalizing s a with
  | nil => rfl
  | cons b bs ih => exact ih _ _
@[simp] theorem State.writeBytes_status (s : State) (a : Nat) (bs : List Byte) : (s.writeBytes a bs).status = s.status := by
  induction bs generalizing s a with
  | nil => rfl
  | cons b bs ih => exact ih _ _
@[simp] theorem State.writeBytes_randDraws (s : State) (a : Nat) (bs : List Byte) : (s.writeBytes a bs).randDraws = s.randDraws := by
  induction bs generalizing s a with
  | nil => rfl
  | cons b bs ih => exact ih _ _
@[simp] theorem State.writeBytes_keyDraws (s : State) (a : Nat) (bs : List Byte) : (s.writeBytes a bs).keyDraws = s.keyDraws := by
  induction bs generalizing s a with
  | nil => rfl
  | cons b bs ih => exact ih _ _
@[simp] theorem State.writeBytes_pending (s : State) (a : Nat) (bs : List Byte) : (s.writeBytes a bs).pending = s.pending := by
  induction bs generalizing s a with
  | nil => rfl
  | cons b bs ih => exact ih _ _
@[simp] theorem State.writeBytes_loadable (s : State) (a : Nat) (bs : List Byte) : (s.writeBytes a bs).loadable = s.loadable := by
  induction bs generalizing s a with
  | nil => rfl
  | cons b bs ih => exact ih _ _

end

section -- writeRegs

@[simp] theorem State.writeRegs_i (s : State) (a : Nat) (bs : List Byte) : (s.writeRegs a bs).i = s.i := by
  induction bs generalizing s a with
  | nil => rfl
  | cons b bs ih => exact ih _ _
@[simp] theorem State.writeRegs_pc (s : State) (a : Nat) (bs : List Byte) : (s.writeRegs a bs).pc = s.pc := by
  induction bs generalizing s a with
  | nil => rfl
  | cons b bs ih => exact ih _ _
@[simp] theorem State.writeRegs_stack (s : State) (a : Nat) (bs : List Byte) : (s.writeRegs a bs).stack = s.stack := by
  induction bs generalizing s a with
  | nil => rfl
  | cons b bs ih => exact ih _ _
@[simp] theorem State.writeRegs_sp (s : State) (a : Nat) (bs : List Byte) : (s.writeRegs a bs).sp = s.sp := by
  induction bs generalizing s a with
  | nil => rfl
  | cons b bs ih => exact ih _ _
@[simp] theorem State.writeRegs_dt (s : State) (a : Nat) (bs : List Byte) : (s.writeRegs a bs).dt = s.dt := by
  induction bs generalizing s a with
  | nil => rfl
  | cons b bs ih => exact ih _ _
@[simp] theorem State.writeRegs_st (s : State) (a : Nat) (bs : List Byte) : (s.writeRegs a bs).st = s.st := by
  induction bs generalizing s a with
  | nil => rfl
  | cons b bs ih => exact ih _ _
@[simp] theorem State.writeRegs_mem (s : State) (a : Nat) (bs : List Byte) : (s.writeRegs a bs).mem = s.mem := by
  induction bs generalizing s a with
  | nil => rfl
  | cons b bs ih => exact ih _ _
@[simp] theorem State.writeRegs_fb (s : State) (a : Nat) (bs : List Byte) : (s.writeRegs a bs).fb = s.fb := by
  induction bs generalizing s a with
  | nil => rfl
  | cons b bs ih => exact ih _ _
@[simp] theorem State.writeRegs_status (s : State) (a : Nat) (bs : List Byte) : (s.writeRegs a bs).status = s.status := by
  induction bs generalizing s a with
  | nil => rfl
  | cons b bs ih => exact ih _ _
@[simp] theorem State.writeRegs_randDraws (s : State) (a : Nat) (bs : List Byte) : (s.writeRegs a bs).randDraws = s.randDraws := by
  induction bs generalizing s a with
  | nil => rfl
  | cons b bs ih => exact ih _ _
@[simp] theorem State.writeRegs_keyDraws (s : State) (a : Nat) (bs : List Byte) : (s.writeRegs a bs).keyDraws = s.keyDraws := by
  induction bs generalizing s a with
  | nil => rfl
  | cons b bs ih => exact ih _ _
@[simp] theorem State.writeRegs_pending (s : State) (a : Nat) (bs : List Byte) : (s.writeRegs a bs).pending = s.pending := by
  induction bs generalizing s a with
  | nil => rfl
  | cons b bs ih => exact ih _ _
@[simp] theorem State.writeRegs_loadable (s : State) (a : Nat) (bs : List Byte) : (s.writeRegs a bs).loadable = s.loadable := by
  induction bs generalizing s a with
  | nil => rfl
  | cons b bs ih => exact ih _ _

end

end Sys2Proof.Machine
end

