-- ==== Sys2Proof/Laws/Registers.lean ====
section
/-! SUPPORT. The general registers: what a write leaves. -/

namespace Sys2Proof.Machine

theorem State.readV_congr {s t : State} (h : t.v = s.v) (x : Nibble) : t.readV x = s.readV x := by
  simp only [State.readV, h]

/-- A register reads as the byte written last to it, and a write leaves every other register alone. -/
theorem State.readV_writeV (s : State) (x y : Nibble) (b : Byte) :
    (s.writeV x b).readV y = if x = y then b else s.readV y := by
  by_cases h : x = y
  · subst h; simp [State.readV, State.writeV]
  · have : x.toNat ≠ y.toNat := fun e => h (BitVec.eq_of_toNat_eq e)
    simp [State.readV, State.writeV, h, Vector.getElem_set_ne, this]

@[simp] theorem State.readV_writeV_same (s : State) (x : Nibble) (b : Byte) : (s.writeV x b).readV x = b := by
  simp [State.readV_writeV]

theorem State.readV_writeV_other {s : State} {x y : Nibble} {b : Byte} (h : x ≠ y) :
    (s.writeV x b).readV y = s.readV y := by simp [State.readV_writeV, h]

@[simp] theorem State.readV_advance (s : State) (x : Nibble) : s.advance.readV x = s.readV x := rfl
@[simp] theorem State.readV_jump (s : State) (a : Word) (x : Nibble) : (s.jump a).readV x = s.readV x := rfl
@[simp] theorem State.readV_setI (s : State) (a : Word) (x : Nibble) : (s.setI a).readV x = s.readV x := rfl
@[simp] theorem State.readV_countKey (s : State) (x : Nibble) : s.countKey.readV x = s.readV x := rfl
@[simp] theorem State.readV_countRand (s : State) (x : Nibble) : s.countRand.readV x = s.readV x := rfl
@[simp] theorem State.readV_closeLoad (s : State) (x : Nibble) : s.closeLoad.readV x = s.readV x := rfl
@[simp] theorem State.readV_raise (s : State) (k : FailureKind) (w : Word) (x : Nibble) :
    (s.raise k w).readV x = s.readV x := rfl
@[simp] theorem State.readV_skipIf (s : State) (c : Bool) (x : Nibble) : (s.skipIf c).readV x = s.readV x := by
  cases c <;> rfl
@[simp] theorem State.readV_writeBytes (s : State) (a : Nat) (bs : List Byte) (x : Nibble) :
    (s.writeBytes a bs).readV x = s.readV x := State.readV_congr (by simp) x

/-- The flag stays where the result's register is `VF`; otherwise both are written (R141). -/
theorem State.readV_writeResult (s : State) (x y : Nibble) (r f : Byte) :
    (s.writeResult x r f).readV y = if vf = y then f else if x = y then r else s.readV y := by
  simp [State.writeResult, State.readV_writeV]

/-- Writing bytes to registers `k`, `k + 1`, ...: register `k + j` holds byte `j`, every other register its old value. -/
theorem State.readV_writeRegs (s : State) (k : Nat) (bs : List Byte) (y : Nibble) (h : k + bs.length ≤ 16) :
    (s.writeRegs k bs).readV y =
      if hy : k ≤ y.toNat ∧ y.toNat < k + bs.length then bs[y.toNat - k]'(by omega) else s.readV y := by
  induction bs generalizing s k with
  | nil =>
    rw [dif_neg (by simp)]; rfl
  | cons b bs ih =>
    simp only [List.length_cons] at h
    rw [State.writeRegs, ih _ _ (by omega), State.readV_writeV]
    have hk : (BitVec.ofNat 4 k).toNat = k := by simp; omega
    by_cases h1 : k + 1 ≤ y.toNat ∧ y.toNat < k + 1 + bs.length
    · rw [dif_pos h1, dif_pos (by simp only [List.length_cons]; omega)]
      simp [show y.toNat - k = (y.toNat - (k + 1)) + 1 by omega]
    · rw [dif_neg h1]
      by_cases h2 : y.toNat = k
      · have : BitVec.ofNat 4 k = y := BitVec.eq_of_toNat_eq (by rw [hk, h2])
        rw [if_pos this, dif_pos (by simp only [List.length_cons]; omega)]
        simp [h2]
      · have : BitVec.ofNat 4 k ≠ y := fun e => h2 (by rw [← e, hk])
        rw [if_neg this, dif_neg (by simp only [List.length_cons]; omega)]

@[simp] theorem State.readRegs_length (s : State) (n : Nat) : (s.readRegs n).length = n := by
  simp [State.readRegs]

@[simp] theorem State.readRegs_getElem (s : State) (n k : Nat) (h : k < (s.readRegs n).length) :
    (s.readRegs n)[k] = s.readV (BitVec.ofNat 4 k) := by
  simp [State.readRegs]

end Sys2Proof.Machine
end

