-- ==== Sys2Proof/Laws/Display.lean ====
section
/-! SUPPORT. The framebuffer: what flipping a pixel and drawing one bit leave. -/

namespace Sys2Proof.Machine

/-- Flipping one pixel of the grid changes that pixel and no other (R102). -/
theorem fbPixel_fbFlip (fb : Framebuffer) {x y x' y' : Nat} (hx : x < 64) (hy : y < 32) :
    fbPixel (fbFlip fb x y) x' y' = (fbPixel fb x' y' ^^ decide (x = x' ∧ y = y')) := by
  unfold fbPixel fbFlip
  rw [dif_pos hy]
  by_cases hy' : y' < 32
  · rw [dif_pos hy', dif_pos hy', Vector.getElem_set]
    by_cases e : y = y'
    · subst e; simp [BitVec.getLsbD_twoPow, hx]
    · simp [e]
  · simp [hy', show y ≠ y' by omega]

/-- A framebuffer is its pixels. -/
theorem fb_ext {f g : Framebuffer} (h : ∀ x y, x < 64 → y < 32 → fbPixel f x y = fbPixel g x y) : f = g := by
  ext y hy x hx
  have := h x y hx hy
  rwa [fbPixel, fbPixel, dif_pos hy, dif_pos hy] at this

@[simp] theorem fbPixel_dark (x y : Nat) : fbPixel Framebuffer.dark x y = false := by
  simp [fbPixel, Framebuffer.dark]

/-- One bit of a sprite: it changes its own pixel, by exclusive or, and no other (R102). -/
theorem drawBit_pixel (d : Drawing) {px py x y : Nat} (bit : Bool) (hpx : px < 64) (hpy : py < 32) :
    fbPixel (drawBit d px py bit).1 x y = (fbPixel d.1 x y ^^ (bit && decide (px = x ∧ py = y))) := by
  unfold drawBit
  cases bit
  · simp
  · simp [fbPixel_fbFlip d.1 hpx hpy]

/-- One bit of a sprite collides exactly where it is 1 and its pixel is lit (R102). -/
theorem drawBit_collision (d : Drawing) (px py : Nat) (bit : Bool) :
    (drawBit d px py bit).2 = (d.2 || (bit && fbPixel d.1 px py)) := by
  unfold drawBit; cases bit <;> simp

/-- The columns `cs` of a sprite row, each visited once: every pixel that a 1 bit of the row byte covers is flipped, no
other, and the collision is seen exactly if one of them was lit (R102). -/
theorem drawColumns_spec {x0 py : Nat} {b : Byte} (hpy : py < 32) (cs : List Nat) (d : Drawing)
    (hc : ∀ c ∈ cs, c < 8) (hn : cs.Nodup) :
    (∀ x y, x < 64 →
      fbPixel (cs.foldl (fun d c => drawBit d ((x0 + c) % 64) py (b.getLsbD (7 - c))) d).1 x y =
        (fbPixel d.1 x y ^^ decide (∃ c ∈ cs, b.getLsbD (7 - c) = true ∧ (x0 + c) % 64 = x ∧ py = y))) ∧
    (cs.foldl (fun d c => drawBit d ((x0 + c) % 64) py (b.getLsbD (7 - c))) d).2 =
      (d.2 || decide (∃ c ∈ cs, b.getLsbD (7 - c) = true ∧ fbPixel d.1 ((x0 + c) % 64) py = true)) := by
  induction cs generalizing d with
  | nil => simp
  | cons c cs ih =>
    rw [List.nodup_cons] at hn
    obtain ⟨ih1, ih2⟩ := ih (drawBit d ((x0 + c) % 64) py (b.getLsbD (7 - c))) (fun c' h => hc c' (by simp [h])) hn.2
    have hc8 := hc c (by simp)
    have hdis : ∀ c' ∈ cs, (x0 + c') % 64 ≠ (x0 + c) % 64 := by
      intro c' h e
      have := hc c' (by simp [h])
      have : c' = c := by omega
      exact hn.1 (this ▸ h)
    have hkeep : ∀ c' ∈ cs, fbPixel (drawBit d ((x0 + c) % 64) py (b.getLsbD (7 - c))).1 ((x0 + c') % 64) py =
        fbPixel d.1 ((x0 + c') % 64) py := by
      intro c' h
      rw [drawBit_pixel d _ (by omega) hpy]
      simp [Ne.symm (hdis c' h)]
    constructor
    · intro x y hx
      rw [List.foldl_cons, ih1 x y hx, drawBit_pixel d _ (by omega) hpy]
      by_cases h1 : ((x0 + c) % 64 = x ∧ py = y)
      · have : ¬ ∃ c' ∈ cs, b.getLsbD (7 - c') = true ∧ (x0 + c') % 64 = x ∧ py = y := by
          rintro ⟨c', h, _, e, _⟩
          exact hdis c' h (by rw [e, h1.1])
        rw [decide_eq_false this]
        simp only [List.mem_cons, exists_eq_or_imp, h1, Bool.xor_false]
        simp
        intro c' h _ e
        exact absurd (by rw [e, h1.1]) (hdis c' h)
      · simp [h1]
    · have e : (∃ c' ∈ cs, b.getLsbD (7 - c') = true ∧
          fbPixel (drawBit d ((x0 + c) % 64) py (b.getLsbD (7 - c))).1 ((x0 + c') % 64) py = true) ↔
          ∃ c' ∈ cs, b.getLsbD (7 - c') = true ∧ fbPixel d.1 ((x0 + c') % 64) py = true :=
        exists_congr fun c' => and_congr_right fun h => by rw [hkeep c' h]
      rw [List.foldl_cons, ih2, drawBit_collision]
      simp only [e]
      by_cases hb : b.getLsbD (7 - c) = true <;> cases d.2 <;> simp [hb]

/-- One row byte of a sprite: every pixel that one of its 1 bits covers is flipped, no other, and the collision is seen
exactly if one of them was lit (R102). -/
theorem drawRow_spec (d : Drawing) {py : Nat} (x0 : Nat) (b : Byte) (hpy : py < 32) :
    (∀ x y, x < 64 → fbPixel (drawRow d x0 py b).1 x y =
      (fbPixel d.1 x y ^^ decide (∃ c ∈ List.range 8, b.getLsbD (7 - c) = true ∧ (x0 + c) % 64 = x ∧ py = y))) ∧
    (drawRow d x0 py b).2 =
      (d.2 || decide (∃ c ∈ List.range 8, b.getLsbD (7 - c) = true ∧ fbPixel d.1 ((x0 + c) % 64) py = true)) :=
  drawColumns_spec hpy (List.range 8) d (by simp) List.nodup_range

end Sys2Proof.Machine
end

