-- ==== Sys2Proof/Laws/Memory.lean ====
section
/-! SUPPORT. Memory: what a store leaves, and that every memory operation keeps the canonical form. -/

namespace Sys2Proof.Machine

theorem effAddr_lt (a : Nat) : effAddr a < 4096 := Nat.mod_lt _ (by decide)

theorem effAddr_of_lt {a : Nat} (h : a < 4096) : effAddr a = a := Nat.mod_eq_of_lt h

@[simp] theorem effAddr_effAddr (a : Nat) : effAddr (effAddr a) = effAddr a := by simp [effAddr]

theorem Memory.wfFrom_mono {lo lo' : Nat} {m : Memory} (h : Memory.wfFrom lo m) (hl : lo' ≤ lo) :
    Memory.wfFrom lo' m := by
  cases m with
  | nil => rfl
  | cons e m =>
    simp only [Memory.wfFrom, Bool.and_eq_true, decide_eq_true_eq] at h ⊢
    exact ⟨⟨⟨by omega, h.1.1.2⟩, h.1.2⟩, h.2⟩

/-- Below the first listed address a canonical memory reads as at reset. -/
theorem Memory.read_of_wfFrom {lo a : Nat} {m : Memory} (h : Memory.wfFrom lo m) (ha : a < lo) :
    Memory.read m a = Memory.resetByte a := by
  induction m generalizing lo with
  | nil => rfl
  | cons e m ih =>
    simp only [Memory.wfFrom, Bool.and_eq_true, decide_eq_true_eq] at h
    have hne : e.1 ≠ a := by omega
    simp only [Memory.read, hne, if_false]
    exact ih h.2 (by omega)

theorem Memory.wfFrom_place {lo a : Nat} {b : Byte} {m : Memory} (hm : Memory.wfFrom (a + 1) m)
    (hl : lo ≤ a) (ha : a < 4096) : Memory.wfFrom lo (Memory.place a b m) := by
  unfold Memory.place
  split
  · exact Memory.wfFrom_mono hm (by omega)
  · next hb => simp [Memory.wfFrom, hl, ha, hb, hm]

theorem Memory.wfFrom_write {lo a : Nat} {m : Memory} (b : Byte) (h : Memory.wfFrom lo m) (hl : lo ≤ a)
    (ha : a < 4096) : Memory.wfFrom lo (Memory.write m a b) := by
  induction m generalizing lo with
  | nil => exact Memory.wfFrom_place rfl hl ha
  | cons e m ih =>
    obtain ⟨k, c⟩ := e
    have h' := h
    simp only [Memory.wfFrom, Bool.and_eq_true, decide_eq_true_eq] at h'
    simp only [Memory.write]
    split
    · next hlt =>
      refine Memory.wfFrom_place ?_ hl ha
      simp only [Memory.wfFrom, Bool.and_eq_true, decide_eq_true_eq]
      exact ⟨⟨⟨by omega, h'.1.1.2⟩, h'.1.2⟩, h'.2⟩
    · split
      · next heq => subst heq; exact Memory.wfFrom_place h'.2 hl ha
      · next hne =>
        simp only [Memory.wfFrom, Bool.and_eq_true, decide_eq_true_eq]
        exact ⟨h'.1, ih h'.2 (by omega)⟩

/-- A store keeps the canonical form. -/
theorem Memory.wf_write {m : Memory} {a : Nat} (b : Byte) (h : Memory.wf m) (ha : a < 4096) :
    Memory.wf (Memory.write m a b) := Memory.wfFrom_write b h (Nat.zero_le _) ha

theorem Memory.read_place_same {a : Nat} {b : Byte} {m : Memory} (h : Memory.wfFrom (a + 1) m) :
    Memory.read (Memory.place a b m) a = b := by
  unfold Memory.place
  split
  · next hb => rw [hb, Memory.read_of_wfFrom h (by omega)]
  · simp [Memory.read]

theorem Memory.read_place_other {a c : Nat} {b : Byte} {m : Memory} (h : a ≠ c) :
    Memory.read (Memory.place a b m) c = Memory.read m c := by
  unfold Memory.place; split <;> simp [Memory.read, h]

/-- A read after a store to the same address gives the byte stored. -/
theorem Memory.read_write_same {lo a : Nat} {b : Byte} {m : Memory} (h : Memory.wfFrom lo m) :
    Memory.read (Memory.write m a b) a = b := by
  induction m generalizing lo with
  | nil => exact Memory.read_place_same rfl
  | cons e m ih =>
    obtain ⟨k, c⟩ := e
    have h' := h
    simp only [Memory.wfFrom, Bool.and_eq_true, decide_eq_true_eq] at h'
    simp only [Memory.write]
    split
    · next hlt =>
      refine Memory.read_place_same ?_
      simp only [Memory.wfFrom, Bool.and_eq_true, decide_eq_true_eq]
      exact ⟨⟨⟨by omega, h'.1.1.2⟩, h'.1.2⟩, h'.2⟩
    · split
      · next heq => subst heq; exact Memory.read_place_same h'.2
      · next hlt hne =>
        have hka : k ≠ a := fun hk => hne hk.symm
        simp only [Memory.read, hka, if_false]
        exact ih h'.2

/-- A store leaves every other address alone, in any memory. -/
theorem Memory.read_write_other {a c : Nat} {b : Byte} {m : Memory} (h : a ≠ c) :
    Memory.read (Memory.write m a b) c = Memory.read m c := by
  induction m with
  | nil => exact Memory.read_place_other h
  | cons e m ih =>
    obtain ⟨k, d⟩ := e
    simp only [Memory.write]
    split
    · exact Memory.read_place_other h
    · split
      · next heq => subst heq; rw [Memory.read_place_other h]; simp [Memory.read, h]
      · simp only [Memory.read, ih]

theorem State.readByte_congr {s t : State} (h : t.mem = s.mem) (a : Nat) : t.readByte a = s.readByte a := by
  simp only [State.readByte, h]

theorem State.memWf_writeByte {s : State} (a : Nat) (b : Byte) (h : s.memWf) : (s.writeByte a b).memWf :=
  Memory.wf_write b h (effAddr_lt a)

theorem State.memWf_writeBytes {s : State} (a : Nat) (bs : List Byte) (h : s.memWf) : (s.writeBytes a bs).memWf := by
  induction bs generalizing s a with
  | nil => exact h
  | cons b bs ih => exact ih (a + 1) (State.memWf_writeByte a b h)

theorem State.readByte_writeByte_same {s : State} {a c : Nat} {b : Byte} (hs : s.memWf)
    (h : effAddr a = effAddr c) : (s.writeByte a b).readByte c = b := by
  simp only [State.readByte, State.writeByte, h]
  exact Memory.read_write_same hs

theorem State.readByte_writeByte_other {s : State} {a c : Nat} {b : Byte} (h : effAddr a ≠ effAddr c) :
    (s.writeByte a b).readByte c = s.readByte c := Memory.read_write_other h

theorem mem_byteAddrs {a n c : Nat} : c ∈ byteAddrs a n ↔ ∃ k, k < n ∧ effAddr (a + k) = c := by
  simp [byteAddrs]

/-- What storing bytes leaves alone: every address that is none of theirs, in any memory. -/
theorem State.readByte_writeBytes_other {s : State} {a c : Nat} {bs : List Byte}
    (h : effAddr c ∉ byteAddrs a bs.length) : (s.writeBytes a bs).readByte c = s.readByte c := by
  induction bs generalizing s a with
  | nil => rfl
  | cons b bs ih =>
    rw [mem_byteAddrs] at h
    have h0 : effAddr a ≠ effAddr c := fun e => h ⟨0, by simp, e⟩
    rw [State.writeBytes, ih, State.readByte_writeByte_other h0]
    rw [mem_byteAddrs]
    rintro ⟨k, hk, e⟩
    exact h ⟨k + 1, by simpa using hk, by rw [← e]; congr 1; omega⟩

/-- What storing at most 4096 bytes stores: byte `k` at offset `k`. -/
theorem State.readByte_writeBytes_same {s : State} {a k : Nat} {bs : List Byte} (hs : s.memWf)
    (hn : bs.length ≤ 4096) (hk : k < bs.length) : (s.writeBytes a bs).readByte (a + k) = bs[k] := by
  induction bs generalizing s a k with
  | nil => simp at hk
  | cons b bs ih =>
    simp only [List.length_cons] at hn hk
    rw [State.writeBytes]
    cases k with
    | zero =>
      rw [State.readByte_writeBytes_other, State.readByte_writeByte_same hs (by simp)]
      · rfl
      · rw [mem_byteAddrs]
        rintro ⟨j, hj, e⟩
        simp only [effAddr, Config.memSize] at e
        omega
    | succ k =>
      have := ih (s := s.writeByte a b) (a := a + 1) (k := k) (State.memWf_writeByte a b hs) (by omega) (by omega)
      rw [show a + (k + 1) = a + 1 + k by omega]
      simpa using this

@[simp] theorem State.readBytes_length (s : State) (a n : Nat) : (s.readBytes a n).length = n := by
  simp [State.readBytes]

@[simp] theorem State.readBytes_getElem (s : State) (a n k : Nat) (h : k < (s.readBytes a n).length) :
    (s.readBytes a n)[k] = s.readByte (a + k) := by
  simp [State.readBytes]

end Sys2Proof.Machine
end

