-- ==== Sys2Proof/Laws/PerInstr.lean ====
section
/-! SUPPORT. Per instruction: its encoding lies in its row of the opcode map (spec/30_encoding.md R77), that is, the
encoder's word under the row's mask is the row's match value. -/

namespace Sys2Proof.Laws.TableRow

/-- The encoding of `i` matches its row: `(w & mask) == match` (R77). -/
def Statement (i : Instr) : Prop := encodeWord i &&& i.rowMask = i.rowMatch

theorem row_Nnn (op : Nibble) (nnn : Addr) : formatNnn op nnn &&& 0xF000#16 = formatXyn op 0#4 0#4 0#4 := by
  rw [and_F000, fieldOp_formatNnn]

theorem row_Xkk (op x : Nibble) (kk : Byte) : formatXkk op x kk &&& 0xF000#16 = formatXyn op 0#4 0#4 0#4 := by
  rw [and_F000, fieldOp_formatXkk]

theorem row_Xyn (op x y n : Nibble) : formatXyn op x y n &&& 0xF000#16 = formatXyn op 0#4 0#4 0#4 := by
  rw [and_F000, fieldOp_formatXyn]

theorem row_F00F (op x y n : Nibble) : formatXyn op x y n &&& 0xF00F#16 = formatXyn op 0#4 0#4 n := by
  rw [and_F00F, fieldOp_formatXyn, fieldN_formatXyn]

theorem row_F0FF (op x : Nibble) (kk : Byte) : formatXkk op x kk &&& 0xF0FF#16 = formatXkk op 0#4 kk := by
  apply BitVec.eq_of_toNat_eq
  have := toNat_fieldKk_nibbles (formatXkk op x kk)
  rw [fieldKk_formatXkk] at this
  rw [and_F0FF, fieldOp_formatXkk, toNat_formatXyn, toNat_formatXkk]
  simp; omega

theorem cls : Statement (.cls) := by
  unfold Statement; decide
theorem ret : Statement (.ret) := by
  unfold Statement; decide
theorem jp (nnn : Addr) : Statement (.jp nnn) := by
  unfold Statement; exact row_Nnn _ _
theorem call (nnn : Addr) : Statement (.call nnn) := by
  unfold Statement; exact row_Nnn _ _
theorem seImm (x : Nibble) (kk : Byte) : Statement (.seImm x kk) := by
  unfold Statement; exact row_Xkk _ _ _
theorem sneImm (x : Nibble) (kk : Byte) : Statement (.sneImm x kk) := by
  unfold Statement; exact row_Xkk _ _ _
theorem seReg (x : Nibble) (y : Nibble) : Statement (.seReg x y) := by
  unfold Statement; exact row_F00F _ _ _ _
theorem ldImm (x : Nibble) (kk : Byte) : Statement (.ldImm x kk) := by
  unfold Statement; exact row_Xkk _ _ _
theorem addImm (x : Nibble) (kk : Byte) : Statement (.addImm x kk) := by
  unfold Statement; exact row_Xkk _ _ _
theorem ldReg (x : Nibble) (y : Nibble) : Statement (.ldReg x y) := by
  unfold Statement; exact row_F00F _ _ _ _
theorem or (x : Nibble) (y : Nibble) : Statement (.or x y) := by
  unfold Statement; exact row_F00F _ _ _ _
theorem and (x : Nibble) (y : Nibble) : Statement (.and x y) := by
  unfold Statement; exact row_F00F _ _ _ _
theorem xor (x : Nibble) (y : Nibble) : Statement (.xor x y) := by
  unfold Statement; exact row_F00F _ _ _ _
theorem addReg (x : Nibble) (y : Nibble) : Statement (.addReg x y) := by
  unfold Statement; exact row_F00F _ _ _ _
theorem sub (x : Nibble) (y : Nibble) : Statement (.sub x y) := by
  unfold Statement; exact row_F00F _ _ _ _
theorem shr (x : Nibble) (y : Nibble) : Statement (.shr x y) := by
  unfold Statement; exact row_F00F _ _ _ _
theorem subn (x : Nibble) (y : Nibble) : Statement (.subn x y) := by
  unfold Statement; exact row_F00F _ _ _ _
theorem shl (x : Nibble) (y : Nibble) : Statement (.shl x y) := by
  unfold Statement; exact row_F00F _ _ _ _
theorem sneReg (x : Nibble) (y : Nibble) : Statement (.sneReg x y) := by
  unfold Statement; exact row_F00F _ _ _ _
theorem ldI (nnn : Addr) : Statement (.ldI nnn) := by
  unfold Statement; exact row_Nnn _ _
theorem jpV0 (nnn : Addr) : Statement (.jpV0 nnn) := by
  unfold Statement; exact row_Nnn _ _
theorem rnd (x : Nibble) (kk : Byte) : Statement (.rnd x kk) := by
  unfold Statement; exact row_Xkk _ _ _
theorem drw (x : Nibble) (y : Nibble) (n : Nibble) : Statement (.drw x y n) := by
  unfold Statement; exact row_Xyn _ _ _ _
theorem skp (x : Nibble) : Statement (.skp x) := by
  unfold Statement; exact row_F0FF _ _ _
theorem sknp (x : Nibble) : Statement (.sknp x) := by
  unfold Statement; exact row_F0FF _ _ _
theorem ldVxDt (x : Nibble) : Statement (.ldVxDt x) := by
  unfold Statement; exact row_F0FF _ _ _
theorem ldVxK (x : Nibble) : Statement (.ldVxK x) := by
  unfold Statement; exact row_F0FF _ _ _
theorem ldDtVx (x : Nibble) : Statement (.ldDtVx x) := by
  unfold Statement; exact row_F0FF _ _ _
theorem ldStVx (x : Nibble) : Statement (.ldStVx x) := by
  unfold Statement; exact row_F0FF _ _ _
theorem addI (x : Nibble) : Statement (.addI x) := by
  unfold Statement; exact row_F0FF _ _ _
theorem ldF (x : Nibble) : Statement (.ldF x) := by
  unfold Statement; exact row_F0FF _ _ _
theorem ldB (x : Nibble) : Statement (.ldB x) := by
  unfold Statement; exact row_F0FF _ _ _
theorem stRegs (x : Nibble) : Statement (.stRegs x) := by
  unfold Statement; exact row_F0FF _ _ _
theorem ldRegs (x : Nibble) : Statement (.ldRegs x) := by
  unfold Statement; exact row_F0FF _ _ _

end Sys2Proof.Laws.TableRow
end

