-- ==== Sys2Proof/Laws/Step.lean ====
section
/-! SUPPORT. What a step can do, said once: the cases of `step`, of an action and of a cycle. -/

namespace Sys2Proof.Machine

/-- With nothing scheduled, a step is a cycle (R71). -/
theorem step_of_idle {s : State} (h : s.pending = []) : step s = s.cycle := by
  simp [step, State.move, h]

/-- With an action scheduled, a step is that action, taken off the schedule (R232). -/
theorem step_of_pending {s : State} {a : AtomicAction} {rest : List AtomicAction} (h : s.pending = a :: rest) :
    step s = { s with pending := rest }.act a := by
  simp [step, State.move, h]

/-- The cases of a step that answers a next state. -/
theorem step_next_cases {s t : State} (h : step s = .next t) :
    (s.pending = [] ∧ s.cycle = .next t) ∨
    (∃ rest, s.pending = .step :: rest ∧ { s with pending := rest }.cycle = .next t) ∨
    (∃ rest, s.pending = .tick :: rest ∧ t = { s with pending := rest }.tick) ∨
    (∃ k rest, s.pending = .keyEvent k :: rest ∧ t = { s with pending := rest }.keyEvent k) ∨
    (∃ rest, s.pending = .reset :: rest ∧ t = { s with pending := rest }.doReset) ∨
    (∃ image rest, s.pending = .load image :: rest ∧ { s with pending := rest }.load image = .next t) := by
  rcases hp : s.pending with _ | ⟨a, rest⟩
  · exact .inl ⟨rfl, by rw [← step_of_idle hp, h]⟩
  · rw [step_of_pending hp] at h
    cases a <;> simp only [State.act, Host.Outcome.next.injEq] at h <;> simp [h]

/-- A cycle of a running machine whose word decodes is that instruction (R71). -/
theorem cycle_of_decoded {s : State} {i : Instr} (hs : s.status = .running) (hi : decodeWord s.fetch = .ok i) :
    s.cycle = exec i s.closeLoad := by
  unfold State.cycle; rw [hs]; simp only [hi]

/-- A cycle of a running machine whose word is unknown raises (R213). -/
theorem cycle_of_unknown {s : State} {r : Reject} (hs : s.status = .running) (hr : decodeWord s.fetch = .error r) :
    s.cycle = .next (s.closeLoad.raise .unknownOpcode s.fetch) := by
  unfold State.cycle; rw [hs]; simp only [hr]

/-- A cycle of a waiting or failed machine is a hold (R226, R217). -/
theorem cycle_of_held {s : State} (hs : s.status ≠ .running) : s.cycle = .next s := by
  unfold State.cycle; split <;> simp_all

/-- The cases of a cycle that answers a next state: an instruction, an unknown word, or a hold. -/
theorem cycle_next_cases {s t : State} (h : s.cycle = .next t) :
    (s.status = .running ∧ ∃ i, decodeWord s.fetch = .ok i ∧ exec i s.closeLoad = .next t) ∨
    (s.status = .running ∧ decodeWord s.fetch = .error (.unknownOpcode s.fetch) ∧
      t = s.closeLoad.raise .unknownOpcode s.fetch) ∨
    (s.status ≠ .running ∧ t = s) := by
  unfold State.cycle at h
  split at h
  · next hs =>
    split at h
    · next i hi => exact .inl ⟨hs, i, hi, h⟩
    · next r hr =>
      rw [decodeWord_error hr] at hr
      exact .inr (.inl ⟨hs, hr, by simpa using h.symm⟩)
  · next hs => exact .inr (.inr ⟨by simp [hs], by simpa using h.symm⟩)
  · next hs => exact .inr (.inr ⟨by simp [hs], by simpa using h.symm⟩)

/-- The cases of a load that answers a next state (R252). -/
theorem load_next_cases {s t : State} {image : List Byte} (h : s.load image = .next t) :
    s.loadable = true ∧
    ((image.length ≤ 3584 ∧ t = { s.writeBytes Config.programStart image with loadable := false }) ∨
     (3584 < image.length ∧ t = { s with status := .failed .programTooLarge, loadable := false })) := by
  unfold State.load at h
  split at h
  · next hl =>
    refine ⟨hl, ?_⟩
    split at h
    · next hw => exact .inl ⟨by simpa [Image.wf] using hw, by simpa using h.symm⟩
    · next hw => exact .inr ⟨by simpa [Image.wf] using hw, by simpa using h.symm⟩
  · simp at h

/-- A key press reaches a state only through WAIT_KEY (R225). -/
theorem keyEvent_cases (s : State) (k : Nibble) :
    (∃ x, s.status = .waitKey x ∧ s.keyEvent k = { s.writeV x (k.zeroExtend 8) with status := .running }) ∨
    ((∀ x, s.status ≠ .waitKey x) ∧ s.keyEvent k = s) := by
  unfold State.keyEvent
  split
  · next x h => exact .inl ⟨x, h, rfl⟩
  · next h => exact .inr ⟨by simp [h], rfl⟩
  · next h => exact .inr ⟨by simp [h], rfl⟩

/-- A return with something on the stack pops it (R120). -/
theorem execRet_of_pos {s : State} (h : 0 < s.sp.val) : execRet s = .next (s.drop.jump (s.top h)) := dif_pos h

/-- A return on an empty stack raises (R212). -/
theorem execRet_of_empty {s : State} (h : ¬ 0 < s.sp.val) :
    execRet s = .next (s.raise .stackUnderflow (encodeWord .ret)) := dif_neg h

/-- A call with room on the stack pushes the address after it and jumps (R122). -/
theorem execCall_of_room {s : State} (nnn : Addr) (h : s.sp.val < 16) :
    execCall nnn s = .next ((s.push s.advance.pc h).jump (zext16Addr nnn)) := dif_pos h

/-- A call on a full stack raises (R211). -/
theorem execCall_of_full {s : State} (nnn : Addr) (h : ¬ s.sp.val < 16) :
    execCall nnn s = .next (s.raise .stackOverflow (encodeWord (.call nnn))) := dif_neg h

/-- The memory an instruction leaves: as it was, or with the bytes that `Fx33` or `Fx55` store. -/
theorem exec_mem_cases {i : Instr} {s t : State} (h : exec i s = .next t) :
    t.mem = s.mem ∨ ∃ a bs, t.mem = (s.writeBytes a bs).mem := by
  have hw : ∀ (u : State) (a : Nat) (bs : List Byte), u.mem = s.mem →
      (u.writeBytes a bs).mem = (s.writeBytes a bs).mem := by
    intro u a bs hu
    have : ∀ (bs : List Byte) (u v : State) (a : Nat), u.mem = v.mem →
        (u.writeBytes a bs).mem = (v.writeBytes a bs).mem := by
      intro bs
      induction bs with
      | nil => intro u v a h; exact h
      | cons b bs ih => intro u v a h; exact ih _ _ _ (by simp [h])
    exact this bs u s a hu
  cases i
  case ldB x => cases h; exact .inr ⟨_, _, hw _ _ _ (by simp)⟩
  case stRegs x => cases h; exact .inr ⟨_, _, hw _ _ _ (by simp)⟩
  case ret =>
    simp only [exec, execRet] at h
    split at h <;> (cases h; left; simp)
  case call nnn =>
    simp only [exec, execCall] at h
    split at h <;> (cases h; left; simp)
  all_goals (cases h; left; simp)

end Sys2Proof.Machine
end

