-- ==== Sys2Proof/Tests/Slice0.lean ====
section
/-! SUPPORT. The model's own tests. Expected values come from spec/95_test_vectors.md (the vector's name is given) or are
written out by hand from the rule named; witnesses show that each statement's hypotheses can be met. -/

namespace Sys2Proof.Tests

open Sys2Proof.Machine

/-- One step of `s` with the word `w` placed where it fetches next. -/
def run (s : State) (w : Nat) : Option State :=
  match step (s.withFetchWord 16 w) with
  | .next t => some t
  | .fault _ => none
  | .refused _ => none

/-- The reset state with registers written. -/
def withRegs (l : List (Nibble × Byte)) : State := l.foldl (fun s p => s.writeV p.1 p.2) State.reset

/-- The state an action leaves. -/
def afterAct (s : State) (a : AtomicAction) : Option State :=
  match s.act a with
  | .next t => some t
  | .fault _ => none
  | .refused _ => none

/-! ## Well-formedness: the check of an image refuses an ill-formed one (V-L1, V-L2) -/

theorem test_wf_image_refuses_3585 : Image.wf (List.replicate 3585 0x12#8) = false := by
  simp only [Image.wf, List.length_replicate]; decide
theorem test_wf_image_accepts_3584 : Image.wf (List.replicate 3584 0x12#8) = true := by
  simp only [Image.wf, List.length_replicate]; decide
/-- Memory's check refuses an entry out of order, one past the end and one that is not canonical. -/
theorem test_wf_memory_refuses :
    Memory.wf [(0x301, 1#8), (0x300, 1#8)] = false ∧ Memory.wf [(4096, 1#8)] = false ∧
    Memory.wf [(0x300, 0#8)] = false ∧ Memory.wf [(0x000, 0xF0#8)] = false ∧ Memory.wf [(0x300, 1#8)] = true := by decide

/-! ## Decoding: a word written out for every row (patterns of R77; V-E1 to V-E18) -/

theorem test_decode_flow :
    decodeWord 0x00E0#16 = .ok .cls ∧ decodeWord 0x00EE#16 = .ok .ret ∧
    decodeWord 0x1204#16 = .ok (.jp 0x204#12) ∧ decodeWord 0x2ABC#16 = .ok (.call 0xABC#12) ∧
    decodeWord 0x3A7F#16 = .ok (.seImm 0xA#4 0x7F#8) ∧ decodeWord 0x4100#16 = .ok (.sneImm 0x1#4 0x00#8) ∧
    decodeWord 0x5AB0#16 = .ok (.seReg 0xA#4 0xB#4) ∧ decodeWord 0x9AB0#16 = .ok (.sneReg 0xA#4 0xB#4) ∧
    decodeWord 0xBFFF#16 = .ok (.jpV0 0xFFF#12) := by decide
theorem test_decode_alu :
    decodeWord 0x6FAB#16 = .ok (.ldImm 0xF#4 0xAB#8) ∧ decodeWord 0x70FF#16 = .ok (.addImm 0x0#4 0xFF#8) ∧
    decodeWord 0x8120#16 = .ok (.ldReg 0x1#4 0x2#4) ∧ decodeWord 0x8121#16 = .ok (.or 0x1#4 0x2#4) ∧
    decodeWord 0x8122#16 = .ok (.and 0x1#4 0x2#4) ∧ decodeWord 0x8123#16 = .ok (.xor 0x1#4 0x2#4) ∧
    decodeWord 0x8F14#16 = .ok (.addReg 0xF#4 0x1#4) ∧ decodeWord 0x80F5#16 = .ok (.sub 0x0#4 0xF#4) ∧
    decodeWord 0x8016#16 = .ok (.shr 0x0#4 0x1#4) ∧ decodeWord 0x8AB7#16 = .ok (.subn 0xA#4 0xB#4) ∧
    decodeWord 0x8ABE#16 = .ok (.shl 0xA#4 0xB#4) ∧ decodeWord 0xC1F0#16 = .ok (.rnd 0x1#4 0xF0#8) := by decide
theorem test_decode_index_display_keys :
    decodeWord 0xA123#16 = .ok (.ldI 0x123#12) ∧ decodeWord 0xD5A3#16 = .ok (.drw 0x5#4 0xA#4 0x3#4) ∧
    decodeWord 0xE19E#16 = .ok (.skp 0x1#4) ∧ decodeWord 0xE1A1#16 = .ok (.sknp 0x1#4) ∧
    decodeWord 0xF107#16 = .ok (.ldVxDt 0x1#4) ∧ decodeWord 0xF10A#16 = .ok (.ldVxK 0x1#4) ∧
    decodeWord 0xF115#16 = .ok (.ldDtVx 0x1#4) ∧ decodeWord 0xF118#16 = .ok (.ldStVx 0x1#4) ∧
    decodeWord 0xF11E#16 = .ok (.addI 0x1#4) ∧ decodeWord 0xF129#16 = .ok (.ldF 0x1#4) ∧
    decodeWord 0xF133#16 = .ok (.ldB 0x1#4) ∧ decodeWord 0xF155#16 = .ok (.stRegs 0x1#4) ∧
    decodeWord 0xF165#16 = .ok (.ldRegs 0x1#4) := by decide
theorem test_decode_unknown :
    decodeWord 0x0000#16 = .error (.unknownOpcode 0x0000#16) ∧ decodeWord 0x00E1#16 = .error (.unknownOpcode 0x00E1#16) ∧
    decodeWord 0x0123#16 = .error (.unknownOpcode 0x0123#16) ∧ decodeWord 0x5AB1#16 = .error (.unknownOpcode 0x5AB1#16) ∧
    decodeWord 0x8AB8#16 = .error (.unknownOpcode 0x8AB8#16) ∧ decodeWord 0x8ABF#16 = .error (.unknownOpcode 0x8ABF#16) ∧
    decodeWord 0x9AB5#16 = .error (.unknownOpcode 0x9AB5#16) ∧ decodeWord 0xE100#16 = .error (.unknownOpcode 0xE100#16) ∧
    decodeWord 0xE1A0#16 = .error (.unknownOpcode 0xE1A0#16) ∧ decodeWord 0xF100#16 = .error (.unknownOpcode 0xF100#16) ∧
    decodeWord 0xF175#16 = .error (.unknownOpcode 0xF175#16) := by decide
/-- The table's numbering: bits 15..8 are the byte at the lower address (R53, R74). -/
theorem test_decode_table_word :
    decodeTableWord 16 0x6A2B = some (.ldImm 0xA#4 0x2B#8) ∧ decodeTableWord 16 0x5001 = none ∧
    decodeBytes [0x6A#8, 0x2B#8, 0x99#8] = .ok (.ldImm 0xA#4 0x2B#8, [0x99#8]) ∧
    decodeBytes [0x6A#8] = .error .truncated := by decide

/-! ## Single instructions -/

/-- V-E21: the fetch wraps from 0xFFF to 0x000, and `pc` goes on to 0x1001. -/
theorem test_fetch_wraps :
    (run { State.reset with pc := 0x0FFF#16 } 0x602A).map (fun t => (t.readV 0, t.pc, t.readByte 0xFFF, t.readByte 0)) =
      some (0x2A#8, 0x1001#16, 0x60#8, 0x2A#8) := by decide
/-- V-E19. -/
theorem test_unknown_word_fails :
    (run State.reset 0x0000).map (fun t => (t.status, t.pc)) =
      some (.failed (.inCycle .unknownOpcode 0x0200#16 0x0000#16), 0x0200#16) := by decide
/-- V-D1. -/
theorem test_cls :
    (run ({ State.reset with fb := fbFlip (fbFlip Framebuffer.dark 0 0) 63 31 }.writeV vf 0x55#8) 0x00E0).map
      (fun t => (t.fb, t.readV vf)) = some (Framebuffer.dark, 0x55#8) := by decide
/-- V-D4: columns and rows wrap. -/
theorem test_drw_wraps :
    (run { (withRegs [(0#4, 60#8), (1#4, 31#8)]).writeBytes 0x300 [0xFF#8, 0x81#8] with i := 0x300#16 } 0xD012).map
      (fun t => (t.fb, t.readV vf, t.i)) =
      some ([(60, 31), (61, 31), (62, 31), (63, 31), (0, 31), (1, 31), (2, 31), (3, 31), (60, 0), (3, 0)].foldl
        (fun f p => fbFlip f p.1 p.2) Framebuffer.dark, 0x00#8, 0x300#16) := by decide
/-- V-D7 and the second draw of V-D8: coordinates are read before `VF` is written; a partial overlap collides. -/
theorem test_drw_vf_and_collision :
    (run { (withRegs [(0xF#4, 5#8)]).writeBytes 0x300 [0x80#8] with i := 0x300#16 } 0xDFF1).map
      (fun t => (t.fb, t.readV vf)) = some (fbFlip Framebuffer.dark 5 5, 0x00#8) ∧
    (run { (withRegs []).writeBytes 0x301 [0x60#8] with
        i := 0x301#16, fb := fbFlip (fbFlip Framebuffer.dark 0 0) 1 0 } 0xD011).map
      (fun t => (t.fb, t.readV vf)) = some (fbFlip (fbFlip Framebuffer.dark 0 0) 2 0, 0x01#8) := by decide
/-- V-F7 and V-L7: the popped cell keeps its value; a full stack can return. -/
theorem test_ret :
    (run { State.reset with sp := 1, stack := State.reset.stack.set 0 0x0206#16, pc := 0x020C#16 } 0x00EE).map
      (fun t => (t.pc, t.sp, t.stack[0])) = some (0x0206#16, 0, 0x0206#16) ∧
    (run { State.reset with sp := 16, stack := Vector.replicate 16 0x0202#16 } 0x00EE).map
      (fun t => (t.pc, t.sp)) = some (0x0202#16, 15) := by decide
/-- V-F8. -/
theorem test_ret_underflow :
    (run State.reset 0x00EE).map (fun t => (t.status, t.pc, t.sp)) =
      some (.failed (.inCycle .stackUnderflow 0x0200#16 0x00EE#16), 0x0200#16, 0) := by decide
/-- V-F3. -/
theorem test_jp : (run State.reset 0x1FFF).map (·.pc) = some 0x0FFF#16 := by decide
/-- V-F5: the pushed address keeps 16 bits. -/
theorem test_call :
    (run { State.reset with pc := 0x0FFE#16 } 0x2ABC).map (fun t => (t.pc, t.sp, t.stack[0])) =
      some (0x0ABC#16, 1, 0x1000#16) := by decide
/-- V-F6. -/
theorem test_call_overflow :
    (run { State.reset with sp := 16 } 0x2ABC).map (fun t => (t.status, t.pc, t.sp)) =
      some (.failed (.inCycle .stackOverflow 0x0200#16 0x2ABC#16), 0x0200#16, 16) := by decide
/-- V-F22 and V-F10: a skip past 0xFFF is not masked; no skip where the bytes differ. -/
theorem test_se_imm :
    (run { State.reset with pc := 0x0FFE#16 } 0x3000).map (·.pc) = some 0x1002#16 ∧
    (run (withRegs [(1#4, 1#8)]) 0x3100).map (·.pc) = some 0x0202#16 := by decide
/-- V-F12, V-F13. -/
theorem test_sne_imm :
    (run (withRegs [(1#4, 1#8)]) 0x4100).map (·.pc) = some 0x0204#16 ∧
    (run State.reset 0x4100).map (·.pc) = some 0x0202#16 := by decide
/-- V-F15, V-F16. -/
theorem test_se_reg :
    (run (withRegs [(1#4, 7#8), (2#4, 8#8)]) 0x5120).map (·.pc) = some 0x0202#16 ∧
    (run (withRegs [(1#4, 7#8)]) 0x5110).map (·.pc) = some 0x0204#16 := by decide
/-- V-F17, V-F18. -/
theorem test_sne_reg :
    (run (withRegs [(1#4, 7#8), (2#4, 8#8)]) 0x9120).map (·.pc) = some 0x0204#16 ∧
    (run (withRegs [(1#4, 7#8)]) 0x9110).map (·.pc) = some 0x0202#16 := by decide
/-- V-F20. -/
theorem test_jp_v0 : (run (withRegs [(0#4, 0xFF#8)]) 0xBFFF).map (·.pc) = some 0x10FE#16 := by decide
/-- V-A1, V-A2. -/
theorem test_ld_imm :
    (run State.reset 0x602A).map (·.readV 0) = some 0x2A#8 ∧
    (run State.reset 0x6FAB).map (·.readV vf) = some 0xAB#8 := by decide
/-- V-A3, V-A5. -/
theorem test_add_imm :
    (run (withRegs [(0#4, 0xFF#8), (0xF#4, 7#8)]) 0x7001).map (fun t => (t.readV 0, t.readV vf)) = some (0#8, 7#8) ∧
    (run (withRegs [(0xF#4, 0xFF#8)]) 0x7F02).map (·.readV vf) = some 1#8 := by decide
/-- V-A6. -/
theorem test_ld_reg :
    (run (withRegs [(1#4, 0x2A#8)]) 0x8010).map (fun t => (t.readV 0, t.readV 1)) = some (0x2A#8, 0x2A#8) := by decide
/-- V-A7, V-A8, V-A9. -/
theorem test_logic :
    (run (withRegs [(0#4, 0xF0#8), (1#4, 0x0F#8), (0xF#4, 0x55#8)]) 0x8011).map (fun t => (t.readV 0, t.readV vf)) =
      some (0xFF#8, 0x55#8) ∧
    (run (withRegs [(0#4, 0xF0#8), (1#4, 0x3C#8), (0xF#4, 0x55#8)]) 0x8012).map (fun t => (t.readV 0, t.readV vf)) =
      some (0x30#8, 0x55#8) ∧
    (run (withRegs [(0#4, 0xF0#8), (1#4, 0x3C#8), (0xF#4, 0x55#8)]) 0x8013).map (fun t => (t.readV 0, t.readV vf)) =
      some (0xCC#8, 0x55#8) := by decide
/-- V-A12, V-A14. -/
theorem test_add_reg :
    (run (withRegs [(0#4, 0xFF#8), (1#4, 0x01#8)]) 0x8014).map (fun t => (t.readV 0, t.readV vf)) = some (0#8, 1#8) ∧
    (run (withRegs [(0#4, 0x80#8), (1#4, 0x7F#8)]) 0x8014).map (fun t => (t.readV 0, t.readV vf)) =
      some (0xFF#8, 0#8) := by decide
/-- V-A16, V-A17: with `x = F` the carry stays; with `y = F` the operand is the old `VF`. -/
theorem test_add_reg_vf :
    (run (withRegs [(0xF#4, 0xFF#8), (1#4, 0x01#8)]) 0x8F14).map (·.readV vf) = some 1#8 ∧
    (run (withRegs [(0#4, 0xFF#8), (0xF#4, 0x02#8)]) 0x80F4).map (fun t => (t.readV 0, t.readV vf)) =
      some (1#8, 1#8) := by decide
/-- V-A19, V-A20, V-A23. -/
theorem test_sub :
    (run (withRegs [(0#4, 3#8), (1#4, 5#8)]) 0x8015).map (fun t => (t.readV 0, t.readV vf)) = some (0xFE#8, 0#8) ∧
    (run (withRegs [(0#4, 5#8), (1#4, 5#8)]) 0x8015).map (fun t => (t.readV 0, t.readV vf)) = some (0#8, 1#8) ∧
    (run (withRegs [(0xF#4, 9#8), (1#4, 3#8)]) 0x8F15).map (·.readV vf) = some 1#8 := by decide
/-- V-A28, V-A30: `V[y]` is ignored; with `x = F` the flag 0 replaces the result 1. -/
theorem test_shr :
    (run (withRegs [(0#4, 0xFE#8), (1#4, 1#8)]) 0x8016).map (fun t => (t.readV 0, t.readV vf, t.readV 1)) =
      some (0x7F#8, 0#8, 1#8) ∧
    (run (withRegs [(0xF#4, 2#8)]) 0x8F06).map (·.readV vf) = some 0#8 := by decide
/-- V-A31, V-A32. -/
theorem test_subn :
    (run (withRegs [(0#4, 3#8), (1#4, 5#8)]) 0x8017).map (fun t => (t.readV 0, t.readV vf)) = some (2#8, 1#8) ∧
    (run (withRegs [(0#4, 5#8), (1#4, 3#8)]) 0x8017).map (fun t => (t.readV 0, t.readV vf)) =
      some (0xFE#8, 0#8) := by decide
/-- V-A36, V-A39. -/
theorem test_shl :
    (run (withRegs [(0#4, 0x81#8)]) 0x800E).map (fun t => (t.readV 0, t.readV vf)) = some (2#8, 1#8) ∧
    (run (withRegs [(0#4, 0x40#8), (1#4, 0xFF#8)]) 0x801E).map (fun t => (t.readV 0, t.readV vf)) =
      some (0x80#8, 0#8) := by decide
/-- V-A42, the draw as a hypothesis: if the free byte is 0xA7, `V0` is 0x07; one draw is counted. -/
theorem test_rnd (h : Config.randByte 0 = 0xA7#8) :
    ∃ t, exec (.rnd 0#4 0x0F#8) State.reset = .next t ∧ t.readV 0#4 = 0x07#8 ∧ t.randDraws = 1 := by
  refine ⟨_, rfl, ?_, rfl⟩
  show Config.randByte 0 &&& 0x0F#8 = 0x07#8
  rw [h]; decide
/-- V-M1. -/
theorem test_ld_i : (run State.reset 0xA123).map (·.i) = some 0x0123#16 := by decide
/-- V-M4, V-M5: not masked, no flag; wraps at 16 bits. -/
theorem test_add_i :
    (run { withRegs [(0#4, 5#8), (0xF#4, 7#8)] with i := 0x0FFE#16 } 0xF01E).map (fun t => (t.i, t.readV vf)) =
      some (0x1003#16, 7#8) ∧
    (run { withRegs [(0#4, 0xFF#8)] with i := 0xFFFF#16 } 0xF01E).map (·.i) = some 0x00FE#16 := by decide
/-- V-M7, V-M8. -/
theorem test_ld_f :
    (run (withRegs [(0#4, 0x0F#8)]) 0xF029).map (·.i) = some 0x004B#16 ∧
    (run (withRegs [(0#4, 0x1A#8)]) 0xF029).map (·.i) = some 0x0032#16 := by decide
/-- V-M9, V-M11. -/
theorem test_ld_b :
    (run { withRegs [(0#4, 0xEA#8)] with i := 0x300#16 } 0xF033).map
      (fun t => (t.readByte 0x300, t.readByte 0x301, t.readByte 0x302, t.i)) = some (2#8, 3#8, 4#8, 0x300#16) ∧
    (run { withRegs [(0#4, 0xFF#8)] with i := 0x0FFE#16 } 0xF033).map
      (fun t => (t.readByte 0xFFE, t.readByte 0xFFF, t.readByte 0x000)) = some (2#8, 5#8, 5#8) := by decide
/-- V-M12, V-M15. -/
theorem test_st_regs :
    (run { withRegs [(0#4, 0xAA#8), (1#4, 0xBB#8), (2#4, 0xCC#8)] with i := 0x400#16 } 0xF155).map
      (fun t => (t.readByte 0x400, t.readByte 0x401, t.readByte 0x402, t.i)) = some (0xAA#8, 0xBB#8, 0#8, 0x400#16) ∧
    (run { withRegs [(0#4, 0xAA#8), (1#4, 0xBB#8)] with i := 0x0FFF#16 } 0xF155).map
      (fun t => (t.readByte 0xFFF, t.readByte 0x000)) = some (0xAA#8, 0xBB#8) := by decide
/-- V-M17. -/
theorem test_ld_regs :
    (run { (withRegs [(2#4, 0x99#8)]).writeBytes 0x400 [0x11#8, 0x22#8, 0x33#8] with i := 0x400#16 } 0xF165).map
      (fun t => (t.readV 0, t.readV 1, t.readV 2, t.i)) = some (0x11#8, 0x22#8, 0x99#8, 0x400#16) := by decide
/-- V-K5 and V-K2, the level as a hypothesis: the key is the low nibble of the register. -/
theorem test_skp (h : Config.keyLevel 0 7#4 = true) :
    ∃ t, exec (.skp 0#4) (withRegs [(0#4, 0x17#8)]) = .next t ∧ t.pc = 0x0204#16 := by
  refine ⟨_, rfl, ?_⟩
  show (State.skipIf _ (Config.keyLevel 0 7#4)).pc = _
  rw [h]; rfl
/-- V-K4, the level as a hypothesis. -/
theorem test_sknp (h : Config.keyLevel 0 7#4 = true) :
    ∃ t, exec (.sknp 0#4) (withRegs [(0#4, 0x07#8)]) = .next t ∧ t.pc = 0x0202#16 := by
  refine ⟨_, rfl, ?_⟩
  show (State.skipIf _ (!Config.keyLevel 0 7#4)).pc = _
  rw [h]; rfl
/-- V-K6. -/
theorem test_ld_vx_dt :
    (run { State.reset with dt := 0x2A#8 } 0xF307).map (fun t => (t.readV 3, t.dt)) = some (0x2A#8, 0x2A#8) := by decide
/-- V-K7, V-K8. -/
theorem test_timer_loads :
    (run (withRegs [(0#4, 3#8)]) 0xF015).map (·.dt) = some 3#8 ∧
    (run (withRegs [(1#4, 2#8)]) 0xF118).map (fun t => (t.st, t.tone)) = some (2#8, true) := by decide
/-- V-K11, V-K12, V-K14: suspend, hold, complete. -/
theorem test_ld_vx_k :
    (run State.reset 0xF20A).map (fun t => (t.status, t.pc)) = some (.waitKey 2#4, 0x0202#16) ∧
    afterAct { State.reset with status := .waitKey 2#4 } .step = some { State.reset with status := .waitKey 2#4 } ∧
    (afterAct { State.reset with status := .waitKey 2#4 } (.keyEvent 0xB#4)).map (fun t => (t.status, t.readV 2)) =
      some (.running, 0x0B#8) := by decide

/-! ## The host's actions -/

/-- V-K10. -/
theorem test_tick :
    (afterAct { State.reset with dt := 2#8, st := 1#8 } .tick).map (fun t => (t.dt, t.st, t.tone)) =
      some (1#8, 0#8, false) ∧
    (afterAct { State.reset with dt := 0#8, st := 0#8 } .tick).map (fun t => (t.dt, t.st)) = some (0#8, 0#8) := by decide
/-- V-L4, and a second load is refused. -/
theorem test_load :
    (afterAct State.reset (.load [0x12#8, 0x00#8])).map
      (fun t => (t.readByte 0x200, t.readByte 0x201, t.readByte 0x202, t.loadable)) = some (0x12#8, 0#8, 0#8, false) ∧
    afterAct { State.reset with loadable := false } (.load [0x12#8]) = none := by decide
/-- V-L6: `Reset` clears everything, memory too. -/
theorem test_reset :
    afterAct { (State.reset.writeBytes 0x000 [0x12#8, 0x34#8]) with sp := 4, fb := fbFlip Framebuffer.dark 0 0, status := .waitKey 3#4 }
      .reset = some State.reset := by decide
/-- The schedule: a scheduled tick is the next step, and is taken off. -/
theorem test_schedule :
    (match step { State.reset with pending := [.tick, .step], dt := 5#8 } with
      | .next t => some (t.dt, t.pending, t.pc)
      | _ => none) = some (4#8, [.step], 0x0200#16) := by decide

/-! ## Witnesses: states and operands that meet the statements' hypotheses -/

/-- Each row's own match value meets that row's hypothesis `w &&& mask = match`. -/
theorem witness_RowDecodes_first :
    0x00E0#16 &&& 0xFFFF#16 = 0x00E0#16 ∧ 0x00EE#16 &&& 0xFFFF#16 = 0x00EE#16 ∧ 0x1000#16 &&& 0xF000#16 = 0x1000#16 ∧
    0x2000#16 &&& 0xF000#16 = 0x2000#16 ∧ 0x3000#16 &&& 0xF000#16 = 0x3000#16 ∧ 0x4000#16 &&& 0xF000#16 = 0x4000#16 ∧
    0x5000#16 &&& 0xF00F#16 = 0x5000#16 ∧ 0x6000#16 &&& 0xF000#16 = 0x6000#16 ∧ 0x7000#16 &&& 0xF000#16 = 0x7000#16 ∧
    0x8000#16 &&& 0xF00F#16 = 0x8000#16 ∧ 0x8001#16 &&& 0xF00F#16 = 0x8001#16 ∧ 0x8002#16 &&& 0xF00F#16 = 0x8002#16 ∧
    0x8003#16 &&& 0xF00F#16 = 0x8003#16 ∧ 0x8004#16 &&& 0xF00F#16 = 0x8004#16 ∧ 0x8005#16 &&& 0xF00F#16 = 0x8005#16 ∧
    0x8006#16 &&& 0xF00F#16 = 0x8006#16 ∧ 0x8007#16 &&& 0xF00F#16 = 0x8007#16 := by decide
theorem witness_RowDecodes_second :
    0x800E#16 &&& 0xF00F#16 = 0x800E#16 ∧ 0x9000#16 &&& 0xF00F#16 = 0x9000#16 ∧ 0xA000#16 &&& 0xF000#16 = 0xA000#16 ∧
    0xB000#16 &&& 0xF000#16 = 0xB000#16 ∧ 0xC000#16 &&& 0xF000#16 = 0xC000#16 ∧ 0xD000#16 &&& 0xF000#16 = 0xD000#16 ∧
    0xE09E#16 &&& 0xF0FF#16 = 0xE09E#16 ∧ 0xE0A1#16 &&& 0xF0FF#16 = 0xE0A1#16 ∧ 0xF007#16 &&& 0xF0FF#16 = 0xF007#16 ∧
    0xF00A#16 &&& 0xF0FF#16 = 0xF00A#16 ∧ 0xF015#16 &&& 0xF0FF#16 = 0xF015#16 ∧ 0xF018#16 &&& 0xF0FF#16 = 0xF018#16 ∧
    0xF01E#16 &&& 0xF0FF#16 = 0xF01E#16 ∧ 0xF029#16 &&& 0xF0FF#16 = 0xF029#16 ∧ 0xF033#16 &&& 0xF0FF#16 = 0xF033#16 ∧
    0xF055#16 &&& 0xF0FF#16 = 0xF055#16 ∧ 0xF065#16 &&& 0xF0FF#16 = 0xF065#16 := by decide
/-- Two instructions of one row and a word of theirs (OpcodeMapRows, last part). -/
theorem witness_OpcodeMapRows :
    0x8AB6#16 &&& (Instr.shr 0#4 1#4).rowMask = (Instr.shr 0#4 1#4).rowMatch ∧
    0x8AB6#16 &&& (Instr.shr 2#4 3#4).rowMask = (Instr.shr 2#4 3#4).rowMatch := by decide
theorem witness_EncodeOfDecode : decodeBytes [0xD5#8, 0xA3#8, 0x00#8] = .ok (.drw 5#4 0xA#4 3#4, [0x00#8]) := by decide
/-- For RegisterSkips' unknown words: the lowest and the highest low nibble that is not 0. -/
theorem witness_RegisterSkips :
    fieldOp 0x5AB1#16 = 0x5#4 ∧ fieldN 0x5AB1#16 ≠ 0x0#4 ∧ fieldOp 0x9ABF#16 = 0x9#4 ∧ fieldN 0x9ABF#16 ≠ 0x0#4 := by
  decide
/-- For the clauses `x ≠ 0xF` of AddRegSumAndCarry, SubtractionsAndBorrow and ShiftsAndLostBit. -/
theorem witness_flag_arithmetic : 0x0#4 ≠ 0xF#4 ∧ 0xE#4 ≠ 0xF#4 := by decide
/-- For EveryInstructionAnswersNextState: nothing scheduled. -/
theorem witness_EveryInstructionAnswersNextState : State.reset.pending = [] := rfl
/-- For DrawSpriteFlipsCoveredPixels and DrawTwiceRestores: no row, and 15. -/
theorem witness_DrawSprite : ([] : List Byte).length ≤ 15 ∧ (List.replicate 15 0xFF#8).length ≤ 15 := by decide
theorem witness_RetPopsOrUnderflows :
    0 < ({ State.reset with sp := 1 } : State).sp.val ∧ 0 < ({ State.reset with sp := 16 } : State).sp.val ∧
    State.reset.sp.val = 0 := by decide
/-- For CallPushesOrOverflows and CallThenRetReturns: the lowest and the highest depth, and the full stack. -/
theorem witness_CallPushesOrOverflows :
    State.reset.sp.val < 16 ∧ ({ State.reset with sp := 15 } : State).sp.val < 16 ∧
    ({ State.reset with sp := 16 } : State).sp.val = 16 := by decide
theorem witness_SeventeenthNestedCallOverflows :
    State.reset.sp.val + (List.replicate 16 0x200#12).length = 16 ∧
    ({ State.reset with sp := 16 } : State).sp.val + ([] : List Addr).length = 16 := by decide
/-- For every statement whose premise is `s.memWf`: the reset state, and one with bytes listed at both ends. -/
theorem witness_memWf : State.reset.memWf ∧ (State.reset.writeBytes 0xFFF [0x60#8, 0x2A#8]).memWf := by
  constructor <;> (unfold State.memWf; decide)
/-- For StRegsStoresRegisters and LdRegsLoadsRegisters: registers up to `x` at both ends. -/
theorem witness_register_range : (0#4).toNat ≤ (0#4).toNat ∧ (0xF#4).toNat ≤ (0xF#4).toNat := by decide
theorem witness_KeySkipsFollowTheLevel :
    (7#4).toNat = ((withRegs [(0#4, 0x17#8)]).readV 0#4).toNat % 16 ∧
    (0xF#4).toNat = ((withRegs [(0#4, 0xFF#8)]).readV 0#4).toNat % 16 := by decide
theorem witness_KeyWaitSuspendsThenCompletes : State.reset.status = .running := rfl
theorem witness_FetchIsBigEndian : ({ State.reset with pc := 0x1FFF#16 } : State).pc.toNat % 4096 = 4095 := by decide
theorem witness_StepRunsDecodedInstruction :
    (State.reset.withFetchWord 16 0x602A).pending = [] ∧ (State.reset.withFetchWord 16 0x602A).status = .running ∧
    decodeWord (State.reset.withFetchWord 16 0x602A).fetch = .ok (.ldImm 0#4 0x2A#8) ∧
    ({ State.reset.withFetchWord 16 0x602A with pending := [.step, .tick] } : State).pending = .step :: [.tick] := by
  decide
theorem witness_UnknownWordFails :
    State.reset.pending = [] ∧ State.reset.status = .running ∧
    decodeWord State.reset.fetch = .error (.unknownOpcode 0x0000#16) := by decide
theorem witness_FailuresArePrecise :
    ∃ t, State.reset.pending = [] ∧ State.reset.status = .running ∧ step State.reset = .next t ∧
      t.status = .failed (.inCycle .unknownOpcode 0x0200#16 0x0000#16) := ⟨_, rfl, rfl, rfl, rfl⟩
theorem witness_WaitHoldsUntilKey : ({ State.reset with status := .waitKey 0xF#4 } : State).status = .waitKey 0xF#4 := rfl
theorem witness_FailedAbsorbsUntilReset :
    ({ State.reset with status := .failed .programTooLarge } : State).status = .failed .programTooLarge ∧
    ({ State.reset with status := .failed .programTooLarge } : State).pending = [] := ⟨rfl, rfl⟩
theorem witness_KeyEventDroppedUnlessWaiting : ∀ x, State.reset.status ≠ .waitKey x := by decide
theorem witness_LoadWritesImageOrFails :
    State.reset.loadable = true ∧ (List.replicate 3584 0x12#8).length ≤ 3584 ∧
    3584 < (List.replicate 3585 0x12#8).length ∧ ({ State.reset with loadable := false } : State).loadable = false := by
  simp only [List.length_replicate]; decide
theorem witness_OnlySixInstructionsWriteTheFlag :
    ∃ t, exec (.addReg 0#4 1#4) (withRegs [(0#4, 0xFF#8), (1#4, 0x01#8)]) = .next t ∧
      t.readV 0xF#4 ≠ (withRegs [(0#4, 0xFF#8), (1#4, 0x01#8)]).readV 0xF#4 ∧ writesFlag (.addReg 0#4 1#4) :=
  ⟨_, rfl, by decide, trivial⟩
/-- Each clause of StorageHasItsOwnInstructions: stack and `SP` by a call, `SP` by a return. -/
theorem witness_StorageHasItsOwnInstructions_stack :
    (∃ t, exec (.call 0x300#12) State.reset = .next t ∧ t.stack ≠ State.reset.stack ∧ t.sp ≠ State.reset.sp) ∧
    (∃ t, exec .ret { State.reset with sp := 1 } = .next t ∧ t.sp ≠ ({ State.reset with sp := 1 } : State).sp) :=
  ⟨⟨_, rfl, by decide, by decide⟩, ⟨_, rfl, by decide⟩⟩
/-- Each clause of StorageHasItsOwnInstructions: framebuffer, memory, `I`, the timers. -/
theorem witness_StorageHasItsOwnInstructions_rest :
    (∃ t, exec .cls { State.reset with fb := fbFlip Framebuffer.dark 0 0 } = .next t ∧ t.fb ≠ fbFlip Framebuffer.dark 0 0) ∧
    (∃ t, exec (.ldB 0#4) { withRegs [(0#4, 7#8)] with i := 0x300#16 } = .next t ∧
      t.readByte 0x302 ≠ (withRegs [(0#4, 7#8)]).readByte 0x302) ∧
    (∃ t, exec (.ldI 0x300#12) State.reset = .next t ∧ t.i ≠ State.reset.i) ∧
    (∃ t, exec (.ldDtVx 0#4) (withRegs [(0#4, 7#8)]) = .next t ∧ t.dt ≠ (withRegs [(0#4, 7#8)]).dt) ∧
    (∃ t, exec (.ldStVx 0#4) (withRegs [(0#4, 7#8)]) = .next t ∧ t.st ≠ (withRegs [(0#4, 7#8)]).st) :=
  ⟨⟨_, rfl, by decide⟩, ⟨_, rfl, by decide⟩, ⟨_, rfl, by decide⟩, ⟨_, rfl, by decide⟩, ⟨_, rfl, by decide⟩⟩
theorem witness_OnlyTenInstructionsWritePc :
    ∃ t, exec (.ldImm 0#4 0x2A#8) State.reset = .next t ∧ ¬ writesPc (.ldImm 0#4 0x2A#8) := ⟨_, rfl, fun h => h⟩
theorem witness_SoundTimerIsNotRead : ∃ t, exec (.ldVxDt 3#4) { State.reset with st := 9#8 } = .next t := ⟨_, rfl⟩
theorem witness_StepKeepsMemoryCanonical : ∃ t, State.reset.memWf ∧ step State.reset = .next t := ⟨_, rfl, rfl⟩
/-- A FAILED state whose record is true, and a step from it. -/
theorem witness_StepKeepsErrorRecordTrue :
    ∃ s t, s.status = .failed (.inCycle .unknownOpcode 0x0200#16 0x0000#16) ∧ s.errTrue ∧ step s = .next t :=
  ⟨{ State.reset with status := .failed (.inCycle .unknownOpcode 0x0200#16 0x0000#16), loadable := false }, _, rfl,
    ⟨rfl, rfl, rfl, rfl⟩, rfl⟩

end Sys2Proof.Tests
end

section
/-! # The display: what `DrawSprite` flips and when it collides, and `00E0`

The rows of a sprite are followed one at a time (spec/40_display.md R102): each row is `drawRow_spec`, and since at most
32 rows are distinct modulo 32, no later row visits a pixel of this one. -/

namespace Sys2Proof.Machine

/-- A 1 bit of the row byte `b` at `x0` falls on column `px`, each column wrapped, bit 7 leftmost (R102). -/
def RowCovers (x0 : Nat) (b : Byte) (px : Nat) : Prop :=
  ∃ c ∈ List.range 8, b.getLsbD (7 - c) = true ∧ (x0 + c) % 64 = px

/-- `SpriteCovers` with the coordinates as numbers, so that a sprite's rows can be taken off one by one (R102). -/
def RowsCover (x0 y : Nat) (rows : List Byte) (px py : Nat) : Prop :=
  ∃ r c b, rows[r]? = some b ∧ c < 8 ∧ b.getLsbD (7 - c) = true ∧ (x0 + c) % 64 = px ∧ (y + r) % 32 = py

theorem spriteCovers_iff {x0 y0 : Byte} {rows : List Byte} {px py : Nat} :
    SpriteCovers x0 y0 rows px py ↔ RowsCover x0.toNat y0.toNat rows px py := Iff.rfl

theorem RowCovers.lt {x0 : Nat} {b : Byte} {px : Nat} (h : RowCovers x0 b px) : px < 64 := by
  obtain ⟨c, -, -, rfl⟩ := h
  exact Nat.mod_lt _ (by decide)

theorem RowsCover.lt {x0 y : Nat} {rows : List Byte} {px py : Nat} (h : RowsCover x0 y rows px py) :
    px < 64 ∧ py < 32 := by
  obtain ⟨r, c, b, -, -, -, rfl, rfl⟩ := h
  exact ⟨Nat.mod_lt _ (by decide), Nat.mod_lt _ (by decide)⟩

@[simp] theorem not_rowsCover_nil {x0 y px py : Nat} : ¬ RowsCover x0 y [] px py := by
  rintro ⟨r, c, b, hr, -⟩
  simp at hr

theorem rowsCover_cons {x0 y : Nat} {b : Byte} {bs : List Byte} {px py : Nat} :
    RowsCover x0 y (b :: bs) px py ↔ (RowCovers x0 b px ∧ y % 32 = py) ∨ RowsCover x0 (y + 1) bs px py := by
  constructor
  · rintro ⟨r, c, b', hr, hc, hbit, hx, hy⟩
    cases r with
    | zero =>
      obtain rfl : b = b' := by simpa using hr
      exact .inl ⟨⟨c, List.mem_range.2 hc, hbit, hx⟩, hy⟩
    | succ r => exact .inr ⟨r, c, b', by simpa using hr, hc, hbit, hx, by rw [← hy]; congr 1; omega⟩
  · rintro (⟨⟨c, hc, hbit, hx⟩, hy⟩ | ⟨r, c, b', hr, hc, hbit, hx, hy⟩)
    · exact ⟨0, c, b, rfl, List.mem_range.1 hc, hbit, hx, hy⟩
    · exact ⟨r + 1, c, b', by simpa using hr, hc, hbit, hx, by rw [← hy]; congr 1; omega⟩

/-- The rows after a sprite's first one never reach its display row: fewer than 32 follow it (R102). -/
theorem not_rowsCover_first_row {x0 y : Nat} {bs : List Byte} {px : Nat} (hn : bs.length < 32) :
    ¬ RowsCover x0 (y + 1) bs px (y % 32) := by
  rintro ⟨r, c, b, hr, -, -, -, hy⟩
  have : r < bs.length := (List.getElem?_eq_some_iff.1 hr).1
  omega

/-- Drawing a row byte changes exactly the pixels of its display row that its 1 bits cover (R102). -/
theorem drawRow_pixel_ne_iff (d : Drawing) {x0 py x y : Nat} {b : Byte} (hx : x < 64) (hpy : py < 32) :
    fbPixel (drawRow d x0 py b).1 x y ≠ fbPixel d.1 x y ↔ RowCovers x0 b x ∧ py = y := by
  have hcov : (∃ c ∈ List.range 8, b.getLsbD (7 - c) = true ∧ (x0 + c) % 64 = x ∧ py = y) ↔
      RowCovers x0 b x ∧ py = y := by
    simp only [RowCovers, ← and_assoc, exists_and_right]
  rw [(drawRow_spec d x0 b hpy).1 x y hx, ← hcov]
  cases fbPixel d.1 x y <;> simp

/-- Drawing a row byte collides exactly if a pixel that it covers was lit (R102). -/
theorem drawRow_collision_iff (d : Drawing) {x0 py : Nat} {b : Byte} (hpy : py < 32) :
    (drawRow d x0 py b).2 = true ↔ d.2 = true ∨ ∃ px, RowCovers x0 b px ∧ fbPixel d.1 px py = true := by
  have hcov : (∃ c ∈ List.range 8, b.getLsbD (7 - c) = true ∧ fbPixel d.1 ((x0 + c) % 64) py = true) ↔
      ∃ px, RowCovers x0 b px ∧ fbPixel d.1 px py = true := by
    constructor
    · rintro ⟨c, hc, hbit, hlit⟩
      exact ⟨_, ⟨c, hc, hbit, rfl⟩, hlit⟩
    · rintro ⟨_, ⟨c, hc, hbit, rfl⟩, hlit⟩
      exact ⟨c, hc, hbit, hlit⟩
  rw [(drawRow_spec d x0 b hpy).2, Bool.or_eq_true, decide_eq_true_iff, hcov]

/-- Drawing at most 32 rows changes exactly the pixels that their 1 bits cover: no pixel is visited twice (R102). -/
theorem drawRows_pixel_ne_iff {rows : List Byte} (d : Drawing) {x0 y px py : Nat} (hn : rows.length ≤ 32)
    (hpx : px < 64) :
    fbPixel (drawRows d x0 y rows).1 px py ≠ fbPixel d.1 px py ↔ RowsCover x0 y rows px py := by
  induction rows generalizing d y with
  | nil => simp [drawRows]
  | cons b bs ih =>
    have hbs : bs.length < 32 := by simpa using hn
    have hrow := drawRow_pixel_ne_iff d (x0 := x0) (y := py) (b := b) hpx (Nat.mod_lt y (by decide : 0 < 32))
    have hrest := ih (drawRow d x0 (y % 32) b) (y := y + 1) hbs.le
    rw [rowsCover_cons, drawRows]
    by_cases hy : y % 32 = py
    · have hno : ¬ RowsCover x0 (y + 1) bs px py := hy ▸ not_rowsCover_first_row hbs
      rw [not_ne_iff.1 (mt hrest.1 hno), hrow]
      simp [hno]
    · have hkeep : fbPixel (drawRow d x0 (y % 32) b).1 px py = fbPixel d.1 px py :=
        not_ne_iff.1 (mt hrow.1 fun h => hy h.2)
      rw [← hkeep, hrest]
      simp [hy]

/-- Drawing at most 32 rows collides exactly if a pixel that they cover was lit before the first of them (R102). -/
theorem drawRows_collision_iff {rows : List Byte} (d : Drawing) {x0 y : Nat} (hn : rows.length ≤ 32) :
    (drawRows d x0 y rows).2 = true ↔
      d.2 = true ∨ ∃ px py, RowsCover x0 y rows px py ∧ fbPixel d.1 px py = true := by
  induction rows generalizing d y with
  | nil => simp [drawRows]
  | cons b bs ih =>
    have hbs : bs.length < 32 := by simpa using hn
    have hlt : y % 32 < 32 := Nat.mod_lt y (by decide)
    have hkeep : ∀ px py, RowsCover x0 (y + 1) bs px py →
        fbPixel (drawRow d x0 (y % 32) b).1 px py = fbPixel d.1 px py := by
      intro px py h
      refine not_ne_iff.1 (mt (drawRow_pixel_ne_iff d h.lt.1 hlt).1 ?_)
      rintro ⟨-, rfl⟩
      exact not_rowsCover_first_row hbs h
    have hrest : (∃ px py, RowsCover x0 (y + 1) bs px py ∧ fbPixel (drawRow d x0 (y % 32) b).1 px py = true) ↔
        ∃ px py, RowsCover x0 (y + 1) bs px py ∧ fbPixel d.1 px py = true :=
      exists_congr fun px => exists_congr fun py => and_congr_right fun h => by rw [hkeep px py h]
    rw [drawRows, ih _ hbs.le, hrest, drawRow_collision_iff d hlt, or_assoc]
    simp only [rowsCover_cons, or_and_right, exists_or, and_assoc, exists_and_left, exists_eq_left']

/-- An update that leaves the registers, the memory and every part not listed keeps the frame, whatever bytes are listed
as stored (R9). -/
theorem frame_of_parts {regs : List Nibble} {parts : List StatePart} {stored : List Nat} {s t : State}
    (hv : t.v = s.v) (hmem : t.mem = s.mem) (hparts : ∀ p, p ∉ parts → StatePart.same s t p) :
    Frame regs parts stored s t :=
  ⟨fun x _ => State.readV_congr hv x, hparts, fun a _ => State.readByte_congr hmem a⟩

/-- Clearing the display turns every pixel off (R101). -/
@[simp] theorem State.pixelAt_clearDisplay (s : State) (x : Fin 64) (y : Fin 32) :
    s.clearDisplay.pixelAt x y = false := by
  simp [State.pixelAt]

/-- `00E0` changes only `pc` and the framebuffer (R105). -/
theorem frame_advance_clearDisplay (s : State) : Frame [] [.pc, .fb] [] s s.advance.clearDisplay := by
  refine frame_of_parts rfl rfl fun p hp => ?_
  cases p
  case pc | fb => simp at hp
  all_goals rfl

/-- The mask 0xFFFF keeps every bit, so its row holds one word (R77). -/
theorem rowDecodes_of_decodeWord {w : Word} {i : Instr} (h : decodeWord w = .ok i) :
    RowDecodes 0xFFFF#16 w (fun _ => i) := by
  intro w' hw'
  rw [← h, ← hw', show w' &&& 0xFFFF#16 = w' from BitVec.and_allOnes]

/-- Settles O14: at most 15 rows are distinct modulo 32, so the rule for rows applies. -/
theorem drawSpriteFlipsCoveredPixels : Obligations.DrawSpriteFlipsCoveredPixels := by
  intro fb x0 y0 rows hn
  have hn : rows.length ≤ 32 := by omega
  refine ⟨fun px py hpx _ => ?_, ?_⟩
  · rw [spriteCovers_iff]
    exact drawRows_pixel_ne_iff (fb, false) hn hpx
  rw [drawSprite, drawRows_collision_iff (fb, false) hn]
  simp only [spriteCovers_iff]
  constructor
  · rintro (h | ⟨px, py, hcov, hlit⟩)
    · cases h
    · exact ⟨px, py, hcov.lt.1, hcov.lt.2, hcov, hlit⟩
  · rintro ⟨px, py, -, -, hcov, hlit⟩
    exact .inr ⟨px, py, hcov, hlit⟩

/-- Settles O16: the row of mask 0xFFFF holds the one word, and clearing touches the framebuffer alone. -/
theorem clsClearsDisplay : Obligations.ClsClearsDisplay :=
  ⟨rowDecodes_of_decodeWord rfl, fun s => ⟨s.advance.clearDisplay, rfl, State.pixelAt_clearDisplay _, rfl,
    frame_advance_clearDisplay s⟩⟩

end Sys2Proof.Machine
end

section
/-! # Control transfer: `1nnn`, `3xkk` and `4xkk`

An instruction that only transfers control is one `jump` of the state before the cycle (spec/41_flow.md): its frame is
the frame of a jump, proved once. A skip's advance and its further 2 are one jump, by 2 or by 4 (R128). -/

namespace Sys2Proof.Machine

/-- A row of mask 0xF000 is one family of the decoder: its words are those with the match value's top nibble (R77). -/
theorem rowDecodes_of_fieldOp (op : Nibble) {m : Word} {f : Word → Instr} (hm : fieldOp m = op)
    (hf : ∀ w, fieldOp w = op → decodeWord w = .ok (f w)) : RowDecodes 0xF000#16 m f := by
  intro w hw
  apply hf
  rw [← hm, ← hw, and_F000, fieldOp_formatXyn]

theorem rowDecodes_jp : RowDecodes 0xF000#16 0x1000#16 (fun w => .jp (fieldNnn w)) :=
  rowDecodes_of_fieldOp 0x1#4 rfl fun w h => by simp only [decodeWord, h]

theorem rowDecodes_seImm : RowDecodes 0xF000#16 0x3000#16 (fun w => .seImm (fieldX w) (fieldKk w)) :=
  rowDecodes_of_fieldOp 0x3#4 rfl fun w h => by simp only [decodeWord, h]

theorem rowDecodes_sneImm : RowDecodes 0xF000#16 0x4000#16 (fun w => .sneImm (fieldX w) (fieldKk w)) :=
  rowDecodes_of_fieldOp 0x4#4 rfl fun w h => by simp only [decodeWord, h]

/-- A jump changes only `pc` (R23). -/
theorem frame_jump (s : State) (target : Word) : Frame [] [.pc] [] s (s.jump target) := by
  refine frame_of_parts rfl rfl fun p hp => ?_
  cases p
  case pc => simp at hp
  all_goals rfl

/-- The fetch advance and a skip on condition `c` are one jump (R128). -/
theorem advance_skipIf_eq_jump (s : State) (c : Bool) :
    s.advance.skipIf c = s.jump (if c then s.pc + 4#16 else s.pc + 2#16) := by
  cases c
  case false => rfl
  case true =>
    have hpc : s.pc + 2#16 + 2#16 = s.pc + 4#16 := BitVec.add_assoc _ _ _
    exact congrArg s.jump hpc

/-- The address immediate keeps its value when it is extended to 16 bits (R76). -/
theorem toNat_zext16Addr (nnn : Addr) : (zext16Addr nnn).toNat = nnn.toNat :=
  BitVec.toNat_setWidth_of_le (by decide)

theorem exec_jp (nnn : Addr) (s : State) : exec (.jp nnn) s = .next (s.jump (zext16Addr nnn)) := rfl

theorem exec_seImm (x : Nibble) (kk : Byte) (s : State) :
    exec (.seImm x kk) s = .next (s.jump (if s.readV x = kk then s.pc + 4#16 else s.pc + 2#16)) := by
  have h : exec (.seImm x kk) s = .next (s.advance.skipIf (s.readV x == kk)) := rfl
  rw [h, advance_skipIf_eq_jump]; simp only [beq_iff_eq]

theorem exec_sneImm (x : Nibble) (kk : Byte) (s : State) :
    exec (.sneImm x kk) s = .next (s.jump (if s.readV x ≠ kk then s.pc + 4#16 else s.pc + 2#16)) := by
  have h : exec (.sneImm x kk) s = .next (s.advance.skipIf (s.readV x != kk)) := rfl
  rw [h, advance_skipIf_eq_jump]; simp only [bne_iff_ne]

/-- Settles O19: `1nnn` is a jump to the extended immediate. -/
theorem jpSetsPc : Obligations.JpSetsPc :=
  ⟨rowDecodes_jp, fun s nnn => ⟨_, exec_jp nnn s, toNat_zext16Addr nnn, frame_jump s _⟩⟩

/-- Settles O21: each skip is one jump whose target its condition selects. -/
theorem immediateSkips : Obligations.ImmediateSkips := by
  refine ⟨rowDecodes_seImm, rowDecodes_sneImm, fun s x kk => ⟨?_, ?_⟩⟩
  · exact ⟨_, exec_seImm x kk s, frame_jump s _, rfl⟩
  · exact ⟨_, exec_sneImm x kk s, frame_jump s _, rfl⟩

end Sys2Proof.Machine
end

section
/-! # Load, immediate addition and bitwise logic: `6xkk`, `7xkk`, `8xy0` to `8xy3`

These six write one byte to `V[x]` after the fetch advance and no flag (spec/42_alu.md R142 to R147): `exec_<instruction>`
names the byte, and the frame of such a write is proved once. -/

namespace Sys2Proof.Machine

/-- A row of mask 0xF00F in family 8 is one arm of that family: its words are those with the match value's top and low
nibble (R77). -/
theorem rowDecodes_of_family8 (n : Nibble) {m : Word} {f : Word → Instr} (hop : fieldOp m = 0x8#4) (hn : fieldN m = n)
    (hf : ∀ w, fieldN w = n → decodeFamily8 w = .ok (f w)) : RowDecodes 0xF00F#16 m f := by
  intro w hw
  rw [and_F00F] at hw
  have hwop : fieldOp w = 0x8#4 := by rw [← hop, ← hw, fieldOp_formatXyn]
  have hwn : fieldN w = n := by rw [← hn, ← hw, fieldN_formatXyn]
  have hfamily : decodeWord w = decodeFamily8 w := by simp only [decodeWord, hwop]
  rw [hfamily, hf w hwn]

theorem rowDecodes_ldImm : RowDecodes 0xF000#16 0x6000#16 (fun w => .ldImm (fieldX w) (fieldKk w)) :=
  rowDecodes_of_fieldOp 0x6#4 rfl fun w h => by simp only [decodeWord, h]

theorem rowDecodes_addImm : RowDecodes 0xF000#16 0x7000#16 (fun w => .addImm (fieldX w) (fieldKk w)) :=
  rowDecodes_of_fieldOp 0x7#4 rfl fun w h => by simp only [decodeWord, h]

theorem rowDecodes_ldReg : RowDecodes 0xF00F#16 0x8000#16 (fun w => .ldReg (fieldX w) (fieldY w)) :=
  rowDecodes_of_family8 0x0#4 rfl rfl fun w h => by simp only [decodeFamily8, h]

theorem rowDecodes_or : RowDecodes 0xF00F#16 0x8001#16 (fun w => .or (fieldX w) (fieldY w)) :=
  rowDecodes_of_family8 0x1#4 rfl rfl fun w h => by simp only [decodeFamily8, h]

theorem rowDecodes_and : RowDecodes 0xF00F#16 0x8002#16 (fun w => .and (fieldX w) (fieldY w)) :=
  rowDecodes_of_family8 0x2#4 rfl rfl fun w h => by simp only [decodeFamily8, h]

theorem rowDecodes_xor : RowDecodes 0xF00F#16 0x8003#16 (fun w => .xor (fieldX w) (fieldY w)) :=
  rowDecodes_of_family8 0x3#4 rfl rfl fun w h => by simp only [decodeFamily8, h]

/-- The fetch advance and a write to `V[x]` change only `pc` and that register: no flag (R9). -/
theorem frame_advance_writeV (s : State) (x : Nibble) (b : Byte) : Frame [x] [.pc] [] s (s.advance.writeV x b) := by
  refine ⟨fun y hy => ?_, fun p hp => ?_, fun a _ => State.readByte_congr rfl a⟩
  · have hxy : x ≠ y := fun e => hy (by simp [e])
    rw [State.readV_writeV_other hxy, State.readV_advance]
  · cases p
    case pc => simp at hp
    all_goals rfl

/-- An instruction that writes `b` to `V[x]` after the fetch advance leaves `b` there, `pc` past it and the rest as it
was. -/
theorem exec_writeV_result {i : Instr} {s : State} {x : Nibble} {b : Byte}
    (h : exec i s = .next (s.advance.writeV x b)) :
    ∃ t, exec i s = .next t ∧ t.readV x = b ∧ t.pc = s.pc + 2#16 ∧ Frame [x] [.pc] [] s t :=
  ⟨_, h, State.readV_writeV_same _ x b, rfl, frame_advance_writeV s x b⟩

/-- `addByte` is addition modulo 256 (R140). -/
theorem toNat_addByte (a b : Byte) : (addByte a b).toNat = (a.toNat + b.toNat) % 256 := BitVec.toNat_ofNat ..

section Exec
variable (x y : Nibble) (kk : Byte) (s : State)

theorem exec_ldImm : exec (.ldImm x kk) s = .next (s.advance.writeV x kk) := rfl
theorem exec_addImm : exec (.addImm x kk) s = .next (s.advance.writeV x (addByte (s.readV x) kk)) := rfl
theorem exec_ldReg : exec (.ldReg x y) s = .next (s.advance.writeV x (s.readV y)) := rfl
theorem exec_or : exec (.or x y) s = .next (s.advance.writeV x (s.readV x ||| s.readV y)) := rfl
theorem exec_and : exec (.and x y) s = .next (s.advance.writeV x (s.readV x &&& s.readV y)) := rfl
theorem exec_xor : exec (.xor x y) s = .next (s.advance.writeV x (s.readV x ^^^ s.readV y)) := rfl

end Exec

/-- Settles O6: `6xkk` writes `kk`. -/
theorem ldImmSetsRegister : Obligations.LdImmSetsRegister :=
  ⟨rowDecodes_ldImm, fun s x kk => exec_writeV_result (exec_ldImm x kk s)⟩

/-- Settles O7: `7xkk` writes the sum modulo 256, and no write goes to `VF`. -/
theorem addImmWrapsWithoutFlag : Obligations.AddImmWrapsWithoutFlag := by
  refine ⟨rowDecodes_addImm, fun s x kk => ?_⟩
  obtain ⟨t, ht, hx, hpc, hframe⟩ := exec_writeV_result (exec_addImm x kk s)
  exact ⟨t, ht, by rw [hx, toNat_addByte], hpc, hframe⟩

/-- Settles O8: `8xy0` writes the old `V[y]`. -/
theorem ldRegCopies : Obligations.LdRegCopies :=
  ⟨rowDecodes_ldReg, fun s x y => exec_writeV_result (exec_ldReg x y s)⟩

/-- Settles O9: each of the three writes a bitwise operation of the old `V[x]` and `V[y]`. -/
theorem logicBitwiseWithoutFlag : Obligations.LogicBitwiseWithoutFlag := by
  refine ⟨rowDecodes_or, rowDecodes_and, rowDecodes_xor, fun s x y => ⟨?_, ?_, ?_⟩⟩
  · obtain ⟨t, ht, hx, hpc, hframe⟩ := exec_writeV_result (exec_or x y s)
    exact ⟨t, ht, hpc, hframe, fun k _ => by rw [hx, BitVec.getLsbD_or]⟩
  · obtain ⟨t, ht, hx, hpc, hframe⟩ := exec_writeV_result (exec_and x y s)
    exact ⟨t, ht, hpc, hframe, fun k _ => by rw [hx, BitVec.getLsbD_and]⟩
  · obtain ⟨t, ht, hx, hpc, hframe⟩ := exec_writeV_result (exec_xor x y s)
    exact ⟨t, ht, hpc, hframe, fun k _ => by rw [hx, BitVec.getLsbD_xor]⟩

end Sys2Proof.Machine
end

section
/-! # The index register: `Annn`

`Annn` sets `I` to the extended immediate after the fetch advance (spec/43_index_memory.md R170): the frame of such a
write of `I` is proved once. -/

namespace Sys2Proof.Machine

theorem rowDecodes_ldI : RowDecodes 0xF000#16 0xA000#16 (fun w => .ldI (fieldNnn w)) :=
  rowDecodes_of_fieldOp 0xA#4 rfl fun w h => by simp only [decodeWord, h]

theorem exec_ldI (nnn : Addr) (s : State) : exec (.ldI nnn) s = .next (s.advance.setI (zext16Addr nnn)) := rfl

/-- The fetch advance and a write of `I` change only `pc` and `I` (R9). -/
theorem frame_advance_setI (s : State) (a : Word) : Frame [] [.pc, .i] [] s (s.advance.setI a) := by
  refine frame_of_parts rfl rfl fun p hp => ?_
  cases p
  case pc | i => simp at hp
  all_goals rfl

/-- Settles O26: `Annn` writes the extended immediate to `I`, and the extension keeps its value. -/
theorem ldISetsIndex : Obligations.LdISetsIndex :=
  ⟨rowDecodes_ldI, fun s nnn => ⟨_, exec_ldI nnn s, toNat_zext16Addr nnn, rfl, frame_advance_setI s _⟩⟩

end Sys2Proof.Machine
end

section
/-! # The delay timer: `Fx07` and `Fx15`

`Fx07` is one write of the delay timer's value to `V[x]` after the fetch advance, `Fx15` one write of `V[x]`'s value to
the delay timer (spec/44_keys_timers.md R192, R194). -/

namespace Sys2Proof.Machine

/-- The mask of the top nibble and the low byte keeps both (R77). -/
theorem fieldOp_fieldKk_of_and_F0FF {w m : Word} (h : w &&& 0xF0FF#16 = m) :
    fieldOp w = fieldOp m ∧ fieldKk w = fieldKk m := by
  subst h
  rw [and_F0FF]
  refine ⟨(fieldOp_formatXyn ..).symm, BitVec.eq_of_toNat_eq ?_⟩
  rw [toNat_fieldKk_nibbles, toNat_fieldKk_nibbles, fieldY_formatXyn, fieldN_formatXyn]

/-- The top nibble 0xF selects family F, the last arm of the dispatch (R77). -/
theorem decodeWord_eq_decodeFamilyF {w : Word} (h : fieldOp w = 0xF#4) : decodeWord w = decodeFamilyF w := by
  rw [decodeWord, h]
  rfl

/-- A row of mask 0xF0FF in family F is one arm of that family: its words are those with the match value's top nibble
and low byte (R77). -/
theorem rowDecodes_of_familyF (kk : Byte) {m : Word} {f : Word → Instr} (hop : fieldOp m = 0xF#4) (hkk : fieldKk m = kk)
    (hf : ∀ w, fieldKk w = kk → decodeFamilyF w = .ok (f w)) : RowDecodes 0xF0FF#16 m f := by
  intro w hw
  obtain ⟨hwop, hwkk⟩ := fieldOp_fieldKk_of_and_F0FF hw
  rw [decodeWord_eq_decodeFamilyF (hwop.trans hop), hf w (hwkk.trans hkk)]

theorem rowDecodes_ldVxDt : RowDecodes 0xF0FF#16 0xF007#16 (fun w => .ldVxDt (fieldX w)) :=
  rowDecodes_of_familyF 0x07#8 rfl rfl fun w h => by simp only [decodeFamilyF, h]

theorem rowDecodes_ldDtVx : RowDecodes 0xF0FF#16 0xF015#16 (fun w => .ldDtVx (fieldX w)) :=
  rowDecodes_of_familyF 0x15#8 rfl rfl fun w h => by simp only [decodeFamilyF, h]

theorem exec_ldVxDt (x : Nibble) (s : State) : exec (.ldVxDt x) s = .next (s.advance.writeV x s.dt) := rfl

theorem exec_ldDtVx (x : Nibble) (s : State) :
    exec (.ldDtVx x) s = .next { s.advance with dt := s.readV x } := rfl

/-- The fetch advance and a write of the delay timer change only `pc` and that timer (R9). -/
theorem frame_advance_dt (s : State) (b : Byte) : Frame [] [.pc, .dt] [] s { s.advance with dt := b } := by
  refine frame_of_parts rfl rfl fun p hp => ?_
  cases p
  case pc | dt => simp at hp
  all_goals rfl

/-- Settles O33: one write of a register, one of the delay timer. -/
theorem delayTimerMoves : Obligations.DelayTimerMoves := by
  refine ⟨rowDecodes_ldVxDt, rowDecodes_ldDtVx, fun s x => ⟨?_, ?_⟩⟩
  · exact exec_writeV_result (exec_ldVxDt x s)
  · exact ⟨_, exec_ldDtVx x s, rfl, rfl, frame_advance_dt s _⟩

end Sys2Proof.Machine
end

section
/-! # The opcode map: the remaining rows, and decoding and encoding as inverses

Each of the 34 rows is one lemma `rowDecodes_<instruction>`. Since the decoder is a function, two rows that match one
word are one row. A word is its fields in the format of its family, so that the decoder drops no bit
(spec/30_encoding.md R75, R77). -/

namespace Sys2Proof.Machine

/-- A row of mask 0xF00F, in a family whose arm of the decoder looks at the low nibble (R77). -/
theorem rowDecodes_of_fieldOp_fieldN (op n : Nibble) {m : Word} {f : Word → Instr} (hop : fieldOp m = op)
    (hn : fieldN m = n) (hf : ∀ w, fieldOp w = op → fieldN w = n → decodeWord w = .ok (f w)) :
    RowDecodes 0xF00F#16 m f := by
  intro w hw
  rw [and_F00F] at hw
  exact hf w (by rw [← hop, ← hw, fieldOp_formatXyn]) (by rw [← hn, ← hw, fieldN_formatXyn])

/-- A row of mask 0xF0FF in family E is one arm of that family (R77). -/
theorem rowDecodes_of_familyE (kk : Byte) {m : Word} {f : Word → Instr} (hop : fieldOp m = 0xE#4) (hkk : fieldKk m = kk)
    (hf : ∀ w, fieldKk w = kk → decodeFamilyE w = .ok (f w)) : RowDecodes 0xF0FF#16 m f := by
  intro w hw
  obtain ⟨hwop, hwkk⟩ := fieldOp_fieldKk_of_and_F0FF hw
  rw [← hf w (hwkk.trans hkk)]
  simp only [decodeWord, hwop.trans hop]

theorem rowDecodes_cls : RowDecodes 0xFFFF#16 0x00E0#16 (fun _ => .cls) := rowDecodes_of_decodeWord rfl

theorem rowDecodes_ret : RowDecodes 0xFFFF#16 0x00EE#16 (fun _ => .ret) := rowDecodes_of_decodeWord rfl

theorem rowDecodes_call : RowDecodes 0xF000#16 0x2000#16 (fun w => .call (fieldNnn w)) :=
  rowDecodes_of_fieldOp 0x2#4 rfl fun w h => by simp only [decodeWord, h]

theorem rowDecodes_seReg : RowDecodes 0xF00F#16 0x5000#16 (fun w => .seReg (fieldX w) (fieldY w)) :=
  rowDecodes_of_fieldOp_fieldN 0x5#4 0x0#4 rfl rfl fun w h hn => by simp only [decodeWord, h, hn, if_true]

theorem rowDecodes_sneReg : RowDecodes 0xF00F#16 0x9000#16 (fun w => .sneReg (fieldX w) (fieldY w)) :=
  rowDecodes_of_fieldOp_fieldN 0x9#4 0x0#4 rfl rfl fun w h hn => by simp only [decodeWord, h, hn, if_true]

theorem rowDecodes_addReg : RowDecodes 0xF00F#16 0x8004#16 (fun w => .addReg (fieldX w) (fieldY w)) :=
  rowDecodes_of_family8 0x4#4 rfl rfl fun w h => by simp only [decodeFamily8, h]

theorem rowDecodes_sub : RowDecodes 0xF00F#16 0x8005#16 (fun w => .sub (fieldX w) (fieldY w)) :=
  rowDecodes_of_family8 0x5#4 rfl rfl fun w h => by simp only [decodeFamily8, h]

theorem rowDecodes_shr : RowDecodes 0xF00F#16 0x8006#16 (fun w => .shr (fieldX w) (fieldY w)) :=
  rowDecodes_of_family8 0x6#4 rfl rfl fun w h => by simp only [decodeFamily8, h]

theorem rowDecodes_subn : RowDecodes 0xF00F#16 0x8007#16 (fun w => .subn (fieldX w) (fieldY w)) :=
  rowDecodes_of_family8 0x7#4 rfl rfl fun w h => by simp only [decodeFamily8, h]

theorem rowDecodes_shl : RowDecodes 0xF00F#16 0x800E#16 (fun w => .shl (fieldX w) (fieldY w)) :=
  rowDecodes_of_family8 0xE#4 rfl rfl fun w h => by simp only [decodeFamily8, h]

theorem rowDecodes_jpV0 : RowDecodes 0xF000#16 0xB000#16 (fun w => .jpV0 (fieldNnn w)) :=
  rowDecodes_of_fieldOp 0xB#4 rfl fun w h => by simp only [decodeWord, h]

theorem rowDecodes_rnd : RowDecodes 0xF000#16 0xC000#16 (fun w => .rnd (fieldX w) (fieldKk w)) :=
  rowDecodes_of_fieldOp 0xC#4 rfl fun w h => by simp only [decodeWord, h]

theorem rowDecodes_drw : RowDecodes 0xF000#16 0xD000#16 (fun w => .drw (fieldX w) (fieldY w) (fieldN w)) :=
  rowDecodes_of_fieldOp 0xD#4 rfl fun w h => by simp only [decodeWord, h]

theorem rowDecodes_skp : RowDecodes 0xF0FF#16 0xE09E#16 (fun w => .skp (fieldX w)) :=
  rowDecodes_of_familyE 0x9E#8 rfl rfl fun w h => by simp only [decodeFamilyE, h]

theorem rowDecodes_sknp : RowDecodes 0xF0FF#16 0xE0A1#16 (fun w => .sknp (fieldX w)) :=
  rowDecodes_of_familyE 0xA1#8 rfl rfl fun w h => by simp only [decodeFamilyE, h]

theorem rowDecodes_ldVxK : RowDecodes 0xF0FF#16 0xF00A#16 (fun w => .ldVxK (fieldX w)) :=
  rowDecodes_of_familyF 0x0A#8 rfl rfl fun w h => by simp only [decodeFamilyF, h]

theorem rowDecodes_ldStVx : RowDecodes 0xF0FF#16 0xF018#16 (fun w => .ldStVx (fieldX w)) :=
  rowDecodes_of_familyF 0x18#8 rfl rfl fun w h => by simp only [decodeFamilyF, h]

theorem rowDecodes_addI : RowDecodes 0xF0FF#16 0xF01E#16 (fun w => .addI (fieldX w)) :=
  rowDecodes_of_familyF 0x1E#8 rfl rfl fun w h => by simp only [decodeFamilyF, h]

theorem rowDecodes_ldF : RowDecodes 0xF0FF#16 0xF029#16 (fun w => .ldF (fieldX w)) :=
  rowDecodes_of_familyF 0x29#8 rfl rfl fun w h => by simp only [decodeFamilyF, h]

theorem rowDecodes_ldB : RowDecodes 0xF0FF#16 0xF033#16 (fun w => .ldB (fieldX w)) :=
  rowDecodes_of_familyF 0x33#8 rfl rfl fun w h => by simp only [decodeFamilyF, h]

theorem rowDecodes_stRegs : RowDecodes 0xF0FF#16 0xF055#16 (fun w => .stRegs (fieldX w)) :=
  rowDecodes_of_familyF 0x55#8 rfl rfl fun w h => by simp only [decodeFamilyF, h]

theorem rowDecodes_ldRegs : RowDecodes 0xF0FF#16 0xF065#16 (fun w => .ldRegs (fieldX w)) :=
  rowDecodes_of_familyF 0x65#8 rfl rfl fun w h => by simp only [decodeFamilyF, h]

/-- A word that matches the row of `i` decodes to an instruction of that row (R77). -/
theorem decodeWord_of_row {i : Instr} {w : Word} (h : w &&& i.rowMask = i.rowMatch) :
    ∃ i', decodeWord w = .ok i' ∧ i'.rowMask = i.rowMask ∧ i'.rowMatch = i.rowMatch := by
  cases i with
  | cls => exact ⟨_, rowDecodes_cls w h, rfl, rfl⟩
  | ret => exact ⟨_, rowDecodes_ret w h, rfl, rfl⟩
  | jp => exact ⟨_, rowDecodes_jp w h, rfl, rfl⟩
  | call => exact ⟨_, rowDecodes_call w h, rfl, rfl⟩
  | seImm => exact ⟨_, rowDecodes_seImm w h, rfl, rfl⟩
  | sneImm => exact ⟨_, rowDecodes_sneImm w h, rfl, rfl⟩
  | seReg => exact ⟨_, rowDecodes_seReg w h, rfl, rfl⟩
  | ldImm => exact ⟨_, rowDecodes_ldImm w h, rfl, rfl⟩
  | addImm => exact ⟨_, rowDecodes_addImm w h, rfl, rfl⟩
  | ldReg => exact ⟨_, rowDecodes_ldReg w h, rfl, rfl⟩
  | or => exact ⟨_, rowDecodes_or w h, rfl, rfl⟩
  | and => exact ⟨_, rowDecodes_and w h, rfl, rfl⟩
  | xor => exact ⟨_, rowDecodes_xor w h, rfl, rfl⟩
  | addReg => exact ⟨_, rowDecodes_addReg w h, rfl, rfl⟩
  | sub => exact ⟨_, rowDecodes_sub w h, rfl, rfl⟩
  | shr => exact ⟨_, rowDecodes_shr w h, rfl, rfl⟩
  | subn => exact ⟨_, rowDecodes_subn w h, rfl, rfl⟩
  | shl => exact ⟨_, rowDecodes_shl w h, rfl, rfl⟩
  | sneReg => exact ⟨_, rowDecodes_sneReg w h, rfl, rfl⟩
  | ldI => exact ⟨_, rowDecodes_ldI w h, rfl, rfl⟩
  | jpV0 => exact ⟨_, rowDecodes_jpV0 w h, rfl, rfl⟩
  | rnd => exact ⟨_, rowDecodes_rnd w h, rfl, rfl⟩
  | drw => exact ⟨_, rowDecodes_drw w h, rfl, rfl⟩
  | skp => exact ⟨_, rowDecodes_skp w h, rfl, rfl⟩
  | sknp => exact ⟨_, rowDecodes_sknp w h, rfl, rfl⟩
  | ldVxDt => exact ⟨_, rowDecodes_ldVxDt w h, rfl, rfl⟩
  | ldVxK => exact ⟨_, rowDecodes_ldVxK w h, rfl, rfl⟩
  | ldDtVx => exact ⟨_, rowDecodes_ldDtVx w h, rfl, rfl⟩
  | ldStVx => exact ⟨_, rowDecodes_ldStVx w h, rfl, rfl⟩
  | addI => exact ⟨_, rowDecodes_addI w h, rfl, rfl⟩
  | ldF => exact ⟨_, rowDecodes_ldF w h, rfl, rfl⟩
  | ldB => exact ⟨_, rowDecodes_ldB w h, rfl, rfl⟩
  | stRegs => exact ⟨_, rowDecodes_stRegs w h, rfl, rfl⟩
  | ldRegs => exact ⟨_, rowDecodes_ldRegs w h, rfl, rfl⟩

/-- Two rows that match one word are the row of the instruction it decodes to (R77). -/
theorem row_unique {i j : Instr} {w : Word} (hi : w &&& i.rowMask = i.rowMatch) (hj : w &&& j.rowMask = j.rowMatch) :
    i.rowMask = j.rowMask ∧ i.rowMatch = j.rowMatch := by
  obtain ⟨i', hi', hmask, hmatch⟩ := decodeWord_of_row hi
  obtain ⟨j', hj', hmask', hmatch'⟩ := decodeWord_of_row hj
  obtain rfl : i' = j' := by simpa [hi'] using hj'
  exact ⟨hmask.symm.trans hmask', hmatch.symm.trans hmatch'⟩

/-- Family 0 drops no bit (R77). -/
theorem encodeWord_of_decodeFamily0 {w : Word} {i : Instr} (h : decodeFamily0 w = .ok i) : encodeWord i = w := by
  unfold decodeFamily0 at h
  split at h
  · next hw => cases h; exact hw.symm
  · split at h
    · next hw => cases h; exact hw.symm
    · cases h

section Formats
variable {w : Word} {op n : Nibble} {kk : Byte}

/-- A word of a family without further fixed digits, in the format NNN (R75). -/
theorem formatNnn_of_fieldOp (hop : fieldOp w = op) : formatNnn op (fieldNnn w) = w := by
  subst hop; exact formatNnn_fields w

/-- A word of a family without further fixed digits, in the format XKK (R75). -/
theorem formatXkk_of_fieldOp (hop : fieldOp w = op) : formatXkk op (fieldX w) (fieldKk w) = w := by
  subst hop; exact formatXkk_fields w

/-- A word whose top nibble and low byte are known, in the format XKK (R75). -/
theorem formatXkk_of_fieldKk (hop : fieldOp w = op) (hkk : fieldKk w = kk) : formatXkk op (fieldX w) kk = w := by
  subst hkk; exact formatXkk_of_fieldOp hop

/-- A word whose top and low nibbles are known, in the format XYN (R75). -/
theorem formatXyn_of_fieldN (hop : fieldOp w = op) (hn : fieldN w = n) :
    formatXyn op (fieldX w) (fieldY w) n = w := by
  subst hop hn; exact formatXyn_fields w

end Formats

/-- Family 8 drops no bit: its low nibble is the instruction's (R77). -/
theorem encodeWord_of_decodeFamily8 {w : Word} {i : Instr} (hop : fieldOp w = 0x8#4) (h : decodeFamily8 w = .ok i) :
    encodeWord i = w := by
  unfold decodeFamily8 at h
  split at h
  all_goals cases h
  all_goals exact formatXyn_of_fieldN hop ‹_›

/-- Family E drops no bit: its low byte is the instruction's (R77). -/
theorem encodeWord_of_decodeFamilyE {w : Word} {i : Instr} (hop : fieldOp w = 0xE#4) (h : decodeFamilyE w = .ok i) :
    encodeWord i = w := by
  unfold decodeFamilyE at h
  split at h
  all_goals cases h
  all_goals exact formatXkk_of_fieldKk hop ‹_›

/-- Family F drops no bit: its low byte is the instruction's (R77). -/
theorem encodeWord_of_decodeFamilyF {w : Word} {i : Instr} (hop : fieldOp w = 0xF#4) (h : decodeFamilyF w = .ok i) :
    encodeWord i = w := by
  unfold decodeFamilyF at h
  split at h
  all_goals cases h
  all_goals exact formatXkk_of_fieldKk hop ‹_›

/-- The decoder drops no bit: a word that decodes is the encoding of its instruction (R75, R77). -/
theorem encodeWord_of_decodeWord {w : Word} {i : Instr} (h : decodeWord w = .ok i) : encodeWord i = w := by
  unfold decodeWord at h
  split at h
  case h_1 => exact encodeWord_of_decodeFamily0 h
  case h_6 hop | h_10 hop =>
    split at h
    · next hn => cases h; exact formatXyn_of_fieldN hop hn
    · cases h
  case h_9 hop => exact encodeWord_of_decodeFamily8 hop h
  case h_15 hop => exact encodeWord_of_decodeFamilyE hop h
  case h_16 => exact encodeWord_of_decodeFamilyF (by apply nibble_eq_F <;> assumption) h
  case h_2 hop | h_3 hop | h_11 hop | h_12 hop => cases h; exact formatNnn_of_fieldOp hop
  case h_14 hop => cases h; exact formatXyn_of_fieldN hop rfl
  all_goals cases h; exact formatXkk_of_fieldOp ‹_›

/-- The encoder's word decodes to its instruction: it lies in the instruction's row, and the fields it was assembled
from are the fields it is read by (R75, R77). -/
theorem decodeWord_encodeWord (i : Instr) : decodeWord (encodeWord i) = .ok i := by
  cases i
  case cls | ret => rfl
  case ldReg | or | and | xor | addReg | sub | shr | subn | shl => simp [encodeWord, decodeWord, decodeFamily8]
  case skp | sknp => simp [encodeWord, decodeWord, decodeFamilyE]
  case ldVxDt | ldVxK | ldDtVx | ldStVx | addI | ldF | ldB | stRegs | ldRegs =>
    rw [encodeWord, decodeWord_eq_decodeFamilyF (fieldOp_formatXkk ..), decodeFamilyF]; simp
  all_goals simp [encodeWord, decodeWord]

/-- Settles O1: the two bytes of an encoding make up its word again. -/
theorem decodeOfEncode : Obligations.DecodeOfEncode := by
  intro i rest
  simp [encode, decodeBytes, decodeWord_encodeWord]

/-- Settles O2: bytes that decode are a word and the rest, and that word is its instruction's encoding. -/
theorem encodeOfDecode : Obligations.EncodeOfDecode := by
  intro bs i rest h
  unfold decodeBytes at h
  split at h
  · split at h
    · next hi lo rest' i' hi' =>
      cases h
      simp [encode, encodeWord_of_decodeWord hi']
    · cases h
  · cases h

/-- Settles O3: the 34 rows, and two rows that match one word are one. -/
theorem opcodeMapRows : Obligations.OpcodeMapRows :=
  ⟨⟨rowDecodes_cls, rowDecodes_ret, rowDecodes_jp, rowDecodes_call, rowDecodes_seImm, rowDecodes_sneImm,
    rowDecodes_seReg, rowDecodes_ldImm, rowDecodes_addImm, rowDecodes_ldReg, rowDecodes_or, rowDecodes_and,
    rowDecodes_xor, rowDecodes_addReg, rowDecodes_sub, rowDecodes_shr, rowDecodes_subn⟩,
   ⟨rowDecodes_shl, rowDecodes_sneReg, rowDecodes_ldI, rowDecodes_jpV0, rowDecodes_rnd, rowDecodes_drw,
    rowDecodes_skp, rowDecodes_sknp, rowDecodes_ldVxDt, rowDecodes_ldVxK, rowDecodes_ldDtVx, rowDecodes_ldStVx,
    rowDecodes_addI, rowDecodes_ldF, rowDecodes_ldB, rowDecodes_stRegs, rowDecodes_ldRegs⟩,
   fun _ _ _ => row_unique⟩

end Sys2Proof.Machine
end

section
/-! # The unknown words

A word is rejected by its family's arm of the decoder (spec/30_encoding.md R78): one lemma for each of families 0, 8, E
and F; in families 5 and 9 the decoder's own test of the low nibble says it. -/

namespace Sys2Proof.Machine

section Families
variable {w : Word}

/-- In family 0 a word is its address field (R77). -/
theorem eq_iff_fieldNnn_of_family0 (hop : fieldOp w = 0x0#4) (nnn : Addr) :
    w = formatNnn 0x0#4 nnn ↔ fieldNnn w = nnn := by
  constructor
  · intro h; rw [h, fieldNnn_formatNnn]
  · rintro rfl; exact (formatNnn_of_fieldOp hop).symm

theorem decodeFamily0_error_iff (hop : fieldOp w = 0x0#4) :
    decodeFamily0 w = .error (.unknownOpcode w) ↔ fieldNnn w ≠ 0x0E0#12 ∧ fieldNnn w ≠ 0x0EE#12 := by
  have hcls : w = 0x00E0#16 ↔ fieldNnn w = 0x0E0#12 := eq_iff_fieldNnn_of_family0 hop 0x0E0#12
  have hret : w = 0x00EE#16 ↔ fieldNnn w = 0x0EE#12 := eq_iff_fieldNnn_of_family0 hop 0x0EE#12
  rw [ne_eq, ne_eq, ← hcls, ← hret, decodeFamily0]
  split
  · next h => simp [h]
  · next h => simp [h]

/-- The low nibbles that no instruction of family 8 has (R78). -/
theorem nibble_eq_of_ne_family8 : ∀ a : Nibble, a ≠ 0x0#4 → a ≠ 0x1#4 → a ≠ 0x2#4 → a ≠ 0x3#4 → a ≠ 0x4#4 →
    a ≠ 0x5#4 → a ≠ 0x6#4 → a ≠ 0x7#4 → a ≠ 0xE#4 →
    a = 0x8#4 ∨ a = 0x9#4 ∨ a = 0xA#4 ∨ a = 0xB#4 ∨ a = 0xC#4 ∨ a = 0xD#4 ∨ a = 0xF#4 := by
  intros; bv_omega

theorem decodeFamily8_error_iff :
    decodeFamily8 w = .error (.unknownOpcode w) ↔
      fieldN w = 0x8#4 ∨ fieldN w = 0x9#4 ∨ fieldN w = 0xA#4 ∨ fieldN w = 0xB#4 ∨ fieldN w = 0xC#4 ∨
      fieldN w = 0xD#4 ∨ fieldN w = 0xF#4 := by
  unfold decodeFamily8
  split
  case h_10 => exact iff_of_true rfl (by apply nibble_eq_of_ne_family8 <;> assumption)
  all_goals simp [*]

theorem decodeFamilyE_error_iff :
    decodeFamilyE w = .error (.unknownOpcode w) ↔ fieldKk w ≠ 0x9E#8 ∧ fieldKk w ≠ 0xA1#8 := by
  unfold decodeFamilyE
  split
  case h_3 => exact iff_of_true rfl ⟨‹_›, ‹_›⟩
  all_goals simp [*]

theorem decodeFamilyF_error_iff :
    decodeFamilyF w = .error (.unknownOpcode w) ↔
      fieldKk w ≠ 0x07#8 ∧ fieldKk w ≠ 0x0A#8 ∧ fieldKk w ≠ 0x15#8 ∧ fieldKk w ≠ 0x18#8 ∧
      fieldKk w ≠ 0x1E#8 ∧ fieldKk w ≠ 0x29#8 ∧ fieldKk w ≠ 0x33#8 ∧ fieldKk w ≠ 0x55#8 ∧ fieldKk w ≠ 0x65#8 := by
  unfold decodeFamilyF
  split
  case h_10 => exact iff_of_true rfl ⟨‹_›, ‹_›, ‹_›, ‹_›, ‹_›, ‹_›, ‹_›, ‹_›, ‹_›⟩
  all_goals simp [*]

/-- Families 5 and 9 reject a word by its low nibble. -/
theorem decodeWord_error_of_fieldN (hop : fieldOp w = 0x5#4 ∨ fieldOp w = 0x9#4) (hn : fieldN w ≠ 0x0#4) :
    decodeWord w = .error (.unknownOpcode w) := by
  rcases hop with hop | hop <;> simp only [decodeWord, hop, hn, if_false]

end Families

/-- Settles O4: the top nibble selects the family, whose lemma says which of its words are unknown. -/
theorem unknownWordsByFamily : Obligations.UnknownWordsByFamily := by
  intro w
  unfold decodeWord
  split
  case h_1 hop => simp [hop, decodeFamily0_error_iff hop]
  case h_6 hop | h_10 hop => simp [hop]
  case h_9 hop => simp [hop, decodeFamily8_error_iff]
  case h_15 hop => simp [hop, decodeFamilyE_error_iff]
  case h_16 =>
    have hop : fieldOp w = 0xF#4 := by apply nibble_eq_F <;> assumption
    simp [hop, decodeFamilyF_error_iff]
  all_goals simp [*]

/-- Settles O5. -/
theorem wordsWrittenOutDecode : Obligations.WordsWrittenOutDecode := by
  unfold Obligations.WordsWrittenOutDecode; decide

end Sys2Proof.Machine
end

section
/-! # Arithmetic with a flag and the shifts, `8xy4` to `8xyE`, and the random byte, `Cxkk`

The five write a result to `V[x]` and then a flag to `VF` (spec/42_alu.md R141): what that leaves is said once, and each
instruction adds what its result and its flag are. -/

namespace Sys2Proof.Machine

/-- The fetch advance, a result and a flag change only `pc`, `V[x]` and `VF` (R141). -/
theorem frame_advance_writeResult (s : State) (x : Nibble) (r flag : Byte) :
    Frame [x, 0xF#4] [.pc] [] s (s.advance.writeResult x r flag) := by
  refine ⟨fun y hy => ?_, fun p hp => ?_, fun a _ => State.readByte_congr rfl a⟩
  · have hyx : y ≠ x ∧ y ≠ vf := by simpa using hy
    rw [State.readV_writeResult, if_neg hyx.2.symm, if_neg hyx.1.symm, State.readV_advance]
  · cases p
    case pc => simp at hp
    all_goals rfl

/-- An instruction that writes the result `r` to `V[x]` and then `flag` to `VF`: where both go to `VF` the flag
stays (R141). -/
theorem exec_writeResult_result {i : Instr} {s : State} {x : Nibble} {r flag : Byte}
    (h : exec i s = .next (s.advance.writeResult x r flag)) :
    ∃ t, exec i s = .next t ∧ (x ≠ 0xF#4 → t.readV x = r) ∧ t.readV 0xF#4 = flag ∧ t.pc = s.pc + 2#16 ∧
      Frame [x, 0xF#4] [.pc] [] s t := by
  refine ⟨_, h, fun hx => ?_, ?_, rfl, frame_advance_writeResult s x r flag⟩
  · rw [State.readV_writeResult, if_neg hx.symm, if_pos rfl]
  · rw [State.readV_writeResult, if_pos rfl]

section Bytes
variable (a b : Byte)

theorem carryFlag_eq_ite : carryFlag a b = if a.toNat + b.toNat ≥ 256 then 0x01#8 else 0x00#8 := by
  simp only [carryFlag, flagByte, decide_eq_true_iff]

theorem noBorrowFlag_eq_ite : noBorrowFlag a b = if a.toNat ≥ b.toNat then 0x01#8 else 0x00#8 := by
  simp only [noBorrowFlag, flagByte, decide_eq_true_iff]

/-- `subByte` is subtraction modulo 256: 256 is added where the difference is negative (R140). -/
theorem toNat_subByte :
    (subByte a b).toNat = if a.toNat ≥ b.toNat then a.toNat - b.toNat else a.toNat + 256 - b.toNat := by
  have ha := a.isLt
  have hb := b.isLt
  rw [subByte, BitVec.toNat_ofInt]
  split <;> omega

/-- A right shift halves (R140). -/
theorem toNat_shrByte : (shrByte a).toNat = a.toNat / 2 := by
  have ha := a.isLt
  rw [shrByte, BitVec.toNat_ofNat, Nat.mod_eq_of_lt (by omega)]

/-- A left shift doubles modulo 256 (R140). -/
theorem toNat_shlByte : (shlByte a).toNat = 2 * a.toNat % 256 := BitVec.toNat_ofNat ..

/-- Bit `k` of a byte as the flag's value. -/
theorem toNat_flagByte_getLsbD (k : Nat) : (flagByte (a.getLsbD k)).toNat = a.toNat / 2 ^ k % 2 := by
  rw [BitVec.getLsbD, Nat.testBit_eq_decide_div_mod_eq, flagByte]
  rcases Nat.mod_two_eq_zero_or_one (a.toNat / 2 ^ k) with h | h <;> simp [h]

/-- A right shift loses the remainder (R151). -/
theorem toNat_shrFlag : (shrFlag a).toNat = a.toNat % 2 := by
  rw [shrFlag, toNat_flagByte_getLsbD, pow_zero, Nat.div_one]

/-- A left shift loses the top bit (R153). -/
theorem toNat_shlFlag : (shlFlag a).toNat = a.toNat / 128 := by
  have ha := a.isLt
  rw [shlFlag, toNat_flagByte_getLsbD]
  omega

end Bytes

section Exec
variable (x y : Nibble) (kk : Byte) (s : State)

theorem exec_addReg : exec (.addReg x y) s =
    .next (s.advance.writeResult x (addByte (s.readV x) (s.readV y)) (carryFlag (s.readV x) (s.readV y))) := rfl
theorem exec_sub : exec (.sub x y) s =
    .next (s.advance.writeResult x (subByte (s.readV x) (s.readV y)) (noBorrowFlag (s.readV x) (s.readV y))) := rfl
theorem exec_shr : exec (.shr x y) s =
    .next (s.advance.writeResult x (shrByte (s.readV x)) (shrFlag (s.readV x))) := rfl
theorem exec_subn : exec (.subn x y) s =
    .next (s.advance.writeResult x (subByte (s.readV y) (s.readV x)) (noBorrowFlag (s.readV y) (s.readV x))) := rfl
theorem exec_shl : exec (.shl x y) s =
    .next (s.advance.writeResult x (shlByte (s.readV x)) (shlFlag (s.readV x))) := rfl
theorem exec_rnd : exec (.rnd x kk) s = .next (s.advance.countRand.writeV x (s.rand &&& kk)) := rfl

end Exec

/-- Settles O10: the result is the sum modulo 256, the flag its carry. -/
theorem addRegSumAndCarry : Obligations.AddRegSumAndCarry := by
  refine ⟨rowDecodes_addReg, fun s x y => ?_⟩
  obtain ⟨t, ht, hx, hf, hpc, hframe⟩ := exec_writeResult_result (exec_addReg x y s)
  exact ⟨t, ht, fun h => by rw [hx h, toNat_addByte], by rw [hf, carryFlag_eq_ite], hpc, hframe⟩

/-- Settles O11: the two subtractions differ only in which operand is the minuend. -/
theorem subtractionsAndBorrow : Obligations.SubtractionsAndBorrow := by
  refine ⟨rowDecodes_sub, rowDecodes_subn, fun s x y => ⟨?_, ?_⟩⟩
  · obtain ⟨t, ht, hx, hf, hpc, hframe⟩ := exec_writeResult_result (exec_sub x y s)
    exact ⟨t, ht, fun h => by rw [hx h, toNat_subByte], by rw [hf, noBorrowFlag_eq_ite], hpc, hframe⟩
  · obtain ⟨t, ht, hx, hf, hpc, hframe⟩ := exec_writeResult_result (exec_subn x y s)
    exact ⟨t, ht, fun h => by rw [hx h, toNat_subByte], by rw [hf, noBorrowFlag_eq_ite], hpc, hframe⟩

/-- Settles O12: each shift writes half or double of `V[x]` and the bit that is lost. -/
theorem shiftsAndLostBit : Obligations.ShiftsAndLostBit := by
  refine ⟨rowDecodes_shr, rowDecodes_shl, fun s x y => ⟨?_, ?_⟩⟩
  · obtain ⟨t, ht, hx, hf, hpc, hframe⟩ := exec_writeResult_result (exec_shr x y s)
    exact ⟨t, ht, fun h => by rw [hx h, toNat_shrByte], by rw [hf, toNat_shrFlag], hpc, hframe⟩
  · obtain ⟨t, ht, hx, hf, hpc, hframe⟩ := exec_writeResult_result (exec_shl x y s)
    exact ⟨t, ht, fun h => by rw [hx h, toNat_shlByte], by rw [hf, toNat_shlFlag], hpc, hframe⟩

/-- The fetch advance, a draw and a write to `V[x]` change only `pc`, the model's count of draws and that register. -/
theorem frame_advance_countRand_writeV (s : State) (x : Nibble) (b : Byte) :
    Frame [x] [.pc, .randDraws] [] s (s.advance.countRand.writeV x b) := by
  refine ⟨(frame_advance_writeV s x b).1, fun p hp => ?_, fun a _ => State.readByte_congr rfl a⟩
  cases p
  case pc | randDraws => simp at hp
  all_goals rfl

/-- Settles O13: one draw is counted and its byte, under the mask, written. -/
theorem rndMasksAFreshDraw : Obligations.RndMasksAFreshDraw := fun s x kk =>
  ⟨_, exec_rnd x kk s, State.readV_writeV_same _ x _, rfl, rfl, frame_advance_countRand_writeV s x _⟩

end Sys2Proof.Machine
end

section
/-! # Drawing: two equal draws, a sprite that wraps, and `Dxyn`

Which pixels a draw flips and when it collides is `drawSpriteFlipsCoveredPixels`; the two derived properties of R104
follow from it alone (spec/40_display.md section 1). -/

namespace Sys2Proof.Machine

/-- Drawing the one-row sprite 0xFF at column 63 covers column 63 and, wrapped, columns 0 to 6 (R102). -/
theorem rowCovers_wrap {px : Nat} (hpx : px < 64) : RowCovers 63 0xFF#8 px ↔ px = 63 ∨ px ≤ 6 := by
  have hbits : ∀ c, c < 8 → (0xFF#8).getLsbD (7 - c) = true := by decide
  constructor
  · rintro ⟨c, hc, -, rfl⟩
    have hc8 : c < 8 := List.mem_range.1 hc
    omega
  · intro h
    have hc8 : (px + 1) % 64 < 8 := by omega
    exact ⟨(px + 1) % 64, List.mem_range.2 hc8, hbits _ hc8, by omega⟩

section Twice
variable (fb : Framebuffer) (x0 y0 : Byte) {rows : List Byte} (hn : rows.length ≤ 15)
include hn

/-- Each covered pixel is flipped twice, every other one not at all (R104). -/
theorem drawSprite_twice : (drawSprite (drawSprite fb x0 y0 rows).1 x0 y0 rows).1 = fb := by
  refine fb_ext fun px py hpx hpy => ?_
  have hfirst := (drawSpriteFlipsCoveredPixels fb x0 y0 rows hn).1 px py hpx hpy
  have hsecond := (drawSpriteFlipsCoveredPixels (drawSprite fb x0 y0 rows).1 x0 y0 rows hn).1 px py hpx hpy
  by_cases hcov : SpriteCovers x0 y0 rows px py
  · rw [Bool.eq_not.2 (hsecond.2 hcov), Bool.eq_not.2 (hfirst.2 hcov), Bool.not_not]
  · rw [not_ne_iff.1 (mt hsecond.1 hcov), not_ne_iff.1 (mt hfirst.1 hcov)]

/-- A covered pixel is lit after the first draw exactly if that draw turned it on (R104). -/
theorem drawSprite_twice_collision :
    (drawSprite (drawSprite fb x0 y0 rows).1 x0 y0 rows).2 = true ↔
      ∃ px py, px < 64 ∧ py < 32 ∧ fbPixel fb px py = false ∧ fbPixel (drawSprite fb x0 y0 rows).1 px py = true := by
  rw [(drawSpriteFlipsCoveredPixels _ x0 y0 rows hn).2]
  refine exists_congr fun px => exists_congr fun py => and_congr_right fun hpx => and_congr_right fun hpy => ?_
  rw [← (drawSpriteFlipsCoveredPixels fb x0 y0 rows hn).1 px py hpx hpy]
  refine and_congr_left fun hlit => ?_
  rw [hlit, ne_comm, ne_eq, Bool.not_eq_true]

end Twice

/-- Settles O15: the two draws, and the wrapped row. -/
theorem drawTwiceRestores : Obligations.DrawTwiceRestores := by
  refine ⟨fun fb x0 y0 rows hn => ⟨drawSprite_twice fb x0 y0 hn, drawSprite_twice_collision fb x0 y0 hn⟩,
    fun fb px py hpx hpy => ?_⟩
  have hrow : RowsCover 63 31 [0xFF#8] px py ↔ RowCovers 63 0xFF#8 px ∧ 31 = py := by simp [rowsCover_cons]
  have hcov : SpriteCovers 63#8 31#8 [0xFF#8] px py ↔ RowsCover 63 31 [0xFF#8] px py := spriteCovers_iff
  rw [(drawSpriteFlipsCoveredPixels fb 63#8 31#8 [0xFF#8] (by decide)).1 px py hpx hpy, hcov, hrow,
    rowCovers_wrap hpx, and_comm, eq_comm]

theorem exec_drw (x y n : Nibble) (s : State) : exec (.drw x y n) s = .next (s.advance.takeDrawing
    (drawSprite s.fb (s.readV x) (s.readV y) (s.readBytes s.i.toNat n.toNat))) := rfl

/-- The fetch advance and taking a drawing over change only `pc`, the framebuffer and `VF` (R106). -/
theorem frame_advance_takeDrawing (s : State) (d : Drawing) :
    Frame [0xF#4] [.pc, .fb] [] s (s.advance.takeDrawing d) := by
  refine ⟨fun y hy => ?_, fun p hp => ?_, fun a _ => State.readByte_congr rfl a⟩
  · have hyf : y ≠ vf := by simpa using hy
    rw [State.takeDrawing, State.readV_writeV_other hyf.symm]
    rfl
  · cases p
    case pc | fb => simp at hp
    all_goals rfl

/-- `VF` is the collision of the drawing taken over (R106). -/
theorem readV_vf_takeDrawing (s : State) (d : Drawing) :
    (s.takeDrawing d).readV 0xF#4 = if d.2 then 0x01#8 else 0x00#8 := State.readV_writeV_same ..

/-- Settles O17: one drawing is taken over, made from the registers and the memory as they were. -/
theorem drwDrawsFromMemory : Obligations.DrwDrawsFromMemory := fun s x y n =>
  ⟨_, exec_drw x y n s, rfl, readV_vf_takeDrawing _ _, rfl, frame_advance_takeDrawing s _⟩

end Sys2Proof.Machine
end

section
/-! # The stack, the register skips and `Bnnn`

A call with room pushes and jumps, a return with an entry drops and jumps; each fails otherwise and changes nothing but
`status` (spec/41_flow.md section 2, spec/60_exceptions.md sections 1 and 2). -/

namespace Sys2Proof.Machine

section Exec
variable {s : State} (nnn : Addr)

theorem exec_ret_of_pos (h : 0 < s.sp.val) : exec .ret s = .next (s.drop.jump (s.top h)) := execRet_of_pos h

theorem exec_ret_of_empty (h : s.sp.val = 0) : exec .ret s = .next (s.raise .stackUnderflow 0x00EE#16) :=
  execRet_of_empty (by omega)

theorem exec_call_of_room (h : s.sp.val < 16) :
    exec (.call nnn) s = .next ((s.push (s.pc + 2#16) h).jump (zext16Addr nnn)) := execCall_of_room nnn h

/-- The word of a call is the digit 2 and its address (R77). -/
theorem encodeWord_call : encodeWord (.call nnn) = BitVec.ofNat 16 (0x2000 + nnn.toNat) := by
  have hlt := nnn.isLt
  apply BitVec.eq_of_toNat_eq
  rw [encodeWord, toNat_formatNnn, BitVec.toNat_ofNat (0x2000 + nnn.toNat), Nat.mod_eq_of_lt (by omega)]
  rfl

theorem exec_call_of_full (h : s.sp.val = 16) :
    exec (.call nnn) s = .next (s.raise .stackOverflow (BitVec.ofNat 16 (0x2000 + nnn.toNat))) := by
  rw [← encodeWord_call]
  exact execCall_of_full nnn (by omega)

end Exec

/-- A pop changes only `pc` and `SP`: the cell keeps its value (R25). -/
theorem frame_drop_jump (s : State) (target : Word) : Frame [] [.pc, .sp] [] s (s.drop.jump target) := by
  refine frame_of_parts rfl rfl fun p hp => ?_
  cases p
  case pc | sp => simp at hp
  all_goals rfl

/-- A push and a jump change only `pc`, `SP` and the stack (R25). -/
theorem frame_push_jump (s : State) (a target : Word) (h : s.sp.val < 16) :
    Frame [] [.pc, .sp, .stack] [] s ((s.push a h).jump target) := by
  refine frame_of_parts rfl rfl fun p hp => ?_
  cases p
  case pc | sp | stack => simp at hp
  all_goals rfl

/-- The pushed address stands in the cell that `SP` pointed at (R25). -/
theorem stack_push_same (s : State) (a : Word) (h : s.sp.val < 16) : (s.push a h).stack[s.sp.val]? = some a := by
  rw [State.push_stack, Vector.getElem?_set_self]

/-- A push leaves the other cells alone (R25). -/
theorem stack_push_other (s : State) (a : Word) (h : s.sp.val < 16) {k : Nat} (hk : k ≠ s.sp.val) :
    (s.push a h).stack[k]? = s.stack[k]? := by
  rw [State.push_stack, Vector.getElem?_set_ne h hk.symm]

/-- Settles O18: a pop reads the cell below `SP`; on an empty stack the return raises. -/
theorem retPopsOrUnderflows : Obligations.RetPopsOrUnderflows := by
  refine ⟨rowDecodes_ret, fun s h => ?_, fun s h => exec_ret_of_empty h⟩
  exact ⟨_, exec_ret_of_pos h, rfl, Vector.getElem?_eq_getElem _, frame_drop_jump s _⟩

/-- Settles O20: a push and a jump; on a full stack the call raises. -/
theorem callPushesOrOverflows : Obligations.CallPushesOrOverflows := by
  refine ⟨rowDecodes_call, fun s nnn h => ?_, fun s nnn h => exec_call_of_full nnn h⟩
  exact ⟨_, exec_call_of_room nnn h, stack_push_same s _ h, fun k hk => stack_push_other s _ h hk, rfl,
    toNat_zext16Addr nnn, frame_push_jump s _ _ h⟩

/-- The return after a call pops the address that the call pushed (R25). -/
theorem exec_ret_after_push {s : State} (a target : Word) (h : s.sp.val < 16) :
    ∃ u, exec .ret ((s.push a h).jump target) = .next u ∧ u.pc = a ∧ u.sp = s.sp ∧ u.stack = (s.push a h).stack ∧
      Frame [] [.pc, .stack] [] s u := by
  have hpos : 0 < ((s.push a h).jump target).sp.val := Nat.succ_pos _
  have htop : ((s.push a h).jump target).top hpos = a := Vector.getElem_set_self _
  refine ⟨_, exec_ret_of_pos hpos, htop, rfl, rfl, frame_of_parts rfl rfl fun p hp => ?_⟩
  cases p
  case pc | stack => simp at hp
  all_goals rfl

/-- Settles O24: the call pushes the address after itself, the return pops it. -/
theorem callThenRetReturns : Obligations.CallThenRetReturns := by
  intro s nnn h
  obtain ⟨u, hu, hpc, hsp, hstack, hframe⟩ := exec_ret_after_push (s.pc + 2#16) (zext16Addr nnn) h
  exact ⟨_, u, exec_call_of_room nnn h, hu, hpc, hsp, fun k hk => by rw [hstack, stack_push_other s _ h hk], hframe⟩

/-- Calls that end at the depth of 16 all succeed: each finds room (R211). -/
theorem callChain_of_room (targets : List Addr) (s : State) (h : s.sp.val + targets.length = 16) :
    ∃ t, callChain targets s = .next t ∧ t.sp.val = 16 ∧ t.status = s.status := by
  induction targets generalizing s with
  | nil => exact ⟨s, rfl, h, rfl⟩
  | cons nnn targets ih =>
    rw [List.length_cons] at h
    have hroom : s.sp.val < 16 := by omega
    obtain ⟨t, ht, hsp, hstatus⟩ := ih ((s.push (s.pc + 2#16) hroom).jump (zext16Addr nnn))
      (show s.sp.val + 1 + targets.length = 16 by omega)
    exact ⟨t, by rw [callChain, exec_call_of_room nnn hroom]; exact ht, hsp, hstatus⟩

/-- Settles O25: the chain leaves a full stack, on which a further call raises. -/
theorem seventeenthNestedCallOverflows : Obligations.SeventeenthNestedCallOverflows := by
  intro s targets h
  obtain ⟨t, ht, hsp, hstatus⟩ := callChain_of_room targets s h
  exact ⟨t, ht, hsp, hstatus, fun nnn => exec_call_of_full nnn hsp⟩

theorem exec_seReg (x y : Nibble) (s : State) :
    exec (.seReg x y) s = .next (s.jump (if s.readV x = s.readV y then s.pc + 4#16 else s.pc + 2#16)) :=
  exec_seImm x (s.readV y) s

theorem exec_sneReg (x y : Nibble) (s : State) :
    exec (.sneReg x y) s = .next (s.jump (if s.readV x ≠ s.readV y then s.pc + 4#16 else s.pc + 2#16)) :=
  exec_sneImm x (s.readV y) s

/-- Settles O22: each skip is the immediate skip with the old `V[y]` for the immediate. -/
theorem registerSkips : Obligations.RegisterSkips := by
  refine ⟨rowDecodes_seReg, rowDecodes_sneReg, fun w => decodeWord_error_of_fieldN, fun s x y => ⟨?_, ?_⟩⟩
  · exact ⟨_, exec_seReg x y s, frame_jump s _, rfl⟩
  · exact ⟨_, exec_sneReg x y s, frame_jump s _, rfl⟩

/-- A byte keeps its value when it is extended to 16 bits (R127). -/
theorem toNat_zext16Byte (b : Byte) : (zext16Byte b).toNat = b.toNat := BitVec.toNat_setWidth_of_le (by decide)

/-- The sum of an address immediate and a byte does not wrap at 16 bits (R127). -/
theorem toNat_zext16Addr_add_zext16Byte (nnn : Addr) (b : Byte) :
    (zext16Addr nnn + zext16Byte b).toNat = nnn.toNat + b.toNat := by
  have hn := nnn.isLt
  have hb := b.isLt
  rw [BitVec.toNat_add, toNat_zext16Addr, toNat_zext16Byte, Nat.mod_eq_of_lt (by omega)]

theorem exec_jpV0 (nnn : Addr) (s : State) :
    exec (.jpV0 nnn) s = .next (s.jump (zext16Addr nnn + zext16Byte (s.readV 0#4))) := rfl

/-- After a jump the fetch reads the bytes at the target and after it (R53, R72). -/
theorem fetch_jump (s : State) (target : Word) :
    (s.jump target).fetch = wordOfBytes (s.readByte target.toNat) (s.readByte (target.toNat + 1)) := rfl

/-- Settles O23: a jump to a sum that does not wrap. -/
theorem jpV0AddsRegisterZero : Obligations.JpV0AddsRegisterZero := by
  intro s nnn
  have htarget := toNat_zext16Addr_add_zext16Byte nnn (s.readV 0x0#4)
  exact ⟨_, exec_jpV0 nnn s, htarget, by rw [fetch_jump, htarget], frame_jump s _⟩

end Sys2Proof.Machine
end

section
/-! # The index register and memory: `Fx1E`, `Fx29`, `Fx33`, `Fx55` and `Fx65`

A store of bytes changes the masked addresses of those bytes alone, a load of registers the registers it names alone
(spec/43_index_memory.md); from canonical memory the bytes stored are read back. -/

namespace Sys2Proof.Machine

section Exec
variable (x : Nibble) (s : State)

theorem exec_addI : exec (.addI x) s = .next (s.advance.setI (s.i + zext16Byte (s.readV x))) := rfl
theorem exec_ldF : exec (.ldF x) s = .next (s.advance.setI (glyphAddr (lowNibble (s.readV x)))) := rfl
theorem exec_ldB : exec (.ldB x) s = .next (s.advance.writeBytes s.i.toNat (decimalDigits (s.readV x))) := rfl
theorem exec_stRegs : exec (.stRegs x) s = .next (s.advance.writeBytes s.i.toNat (s.readRegs (x.toNat + 1))) := rfl
theorem exec_ldRegs : exec (.ldRegs x) s = .next (s.advance.writeRegs 0 (s.readBytes s.i.toNat (x.toNat + 1))) := rfl

end Exec

/-- Settles O27: the sum is taken in 16 bits. -/
theorem addIAddsSixteenBits : Obligations.AddIAddsSixteenBits := by
  refine fun s x => ⟨_, exec_addI x s, ?_, rfl, frame_advance_setI s _⟩
  rw [State.setI_i, BitVec.toNat_add, toNat_zext16Byte]

/-- The low nibble is the remainder modulo 16 (R172). -/
theorem toNat_lowNibble (b : Byte) : (lowNibble b).toNat = b.toNat % 16 := by
  simp [lowNibble, BitVec.extractLsb'_toNat]

/-- Five bytes a glyph, with no wrap at 16 bits (R172). -/
theorem toNat_glyphAddr (d : Nibble) : (glyphAddr d).toNat = Config.fontBase + 5 * d.toNat := by
  have hd := d.isLt
  have hlt : Config.fontBase + 5 * d.toNat < 65536 := by
    rw [Config.fontBase]; omega
  rw [glyphAddr, BitVec.toNat_ofNat]
  exact Nat.mod_eq_of_lt hlt

/-- Settles O28: `I` gets the glyph's address. -/
theorem ldFPointsAtGlyph : Obligations.LdFPointsAtGlyph := by
  refine fun s x => ⟨_, exec_ldF x s, ?_, rfl, frame_advance_setI s _⟩
  rw [State.setI_i, toNat_glyphAddr, toNat_lowNibble]

/-- The fetch advance and a store of bytes change only `pc` and the bytes at their masked addresses (R54). -/
theorem frame_advance_writeBytes (s : State) (a : Nat) (bs : List Byte) :
    Frame [] [.pc] (byteAddrs a bs.length) s (s.advance.writeBytes a bs) := by
  refine ⟨fun y _ => State.readV_writeBytes .., fun p hp => ?_, fun c hc => ?_⟩
  · cases p
    case pc => simp at hp
    all_goals simp [StatePart.same]
  · rw [State.readByte_writeBytes_other hc]
    rfl

/-- Byte `k` of a store after the fetch advance, read back from a memory that was canonical (R54). -/
theorem readByte_advance_writeBytes {s : State} (hs : s.memWf) (a : Nat) {bs : List Byte} (hn : bs.length ≤ 4096)
    {k : Nat} (hk : k < bs.length) : (s.advance.writeBytes a bs).readByte (a + k) = bs[k] :=
  State.readByte_writeBytes_same (s := s.advance) hs hn hk

/-- Settles O29: the three bytes stored are the digits, each below 256. -/
theorem ldBStoresDecimalDigits : Obligations.LdBStoresDecimalDigits := by
  refine ⟨rowDecodes_ldB, fun s x => ⟨_, exec_ldB x s, fun hs => ?_, by simp, frame_advance_writeBytes s _ _⟩⟩
  have hb := (s.readV x).isLt
  have hdigit : ∀ d, d < 256 → (BitVec.ofNat 8 d).toNat = d := fun d => Nat.mod_eq_of_lt
  have hlen : (decimalDigits (s.readV x)).length = 3 := rfl
  have hread {k : Nat} (hk : k < 3) := readByte_advance_writeBytes hs s.i.toNat (hlen.trans_le (by decide)) (hlen ▸ hk)
  refine ⟨?_, ?_, ?_⟩
  · exact (congrArg BitVec.toNat (hread (k := 0) (by decide))).trans (hdigit _ (by omega))
  · exact (congrArg BitVec.toNat (hread (k := 1) (by decide))).trans (hdigit _ (by omega))
  · exact (congrArg BitVec.toNat (hread (k := 2) (by decide))).trans (hdigit _ (by omega))

/-- Storing `V[0]` to `V[x]` stores `x + 1` bytes (R174). -/
theorem frame_advance_writeBytes_readRegs (s : State) (x : Nibble) :
    Frame [] [.pc] (byteAddrs s.i.toNat (x.toNat + 1)) s
      (s.advance.writeBytes s.i.toNat (s.readRegs (x.toNat + 1))) := by
  have hframe := frame_advance_writeBytes s s.i.toNat (s.readRegs (x.toNat + 1))
  rwa [State.readRegs_length] at hframe

/-- Settles O30: byte `y` of the store is `V[y]`. -/
theorem stRegsStoresRegisters : Obligations.StRegsStoresRegisters := by
  refine ⟨rowDecodes_stRegs, fun s x => ⟨_, exec_stRegs x s, fun hs y hy => ?_, by simp,
    frame_advance_writeBytes_readRegs s x⟩⟩
  have hx := x.isLt
  rw [readByte_advance_writeBytes hs _ (by simp; omega) (by simp; omega), State.readRegs_getElem,
    BitVec.ofNat_toNat, BitVec.setWidth_eq]

/-- Writing at most 16 bytes to `V[0]`, `V[1]`, ...: the registers named hold them, the others stay (R175). -/
theorem readV_advance_writeRegs (s : State) (bs : List Byte) (y : Nibble) (h : bs.length ≤ 16) :
    (s.advance.writeRegs 0 bs).readV y = if hy : y.toNat < bs.length then bs[y.toNat] else s.readV y := by
  rw [State.readV_writeRegs _ _ _ _ (by omega)]
  simp

theorem mem_regsUpTo {x y : Nibble} : y ∈ regsUpTo x ↔ y.toNat ≤ x.toNat := by
  have hx := x.isLt
  simp only [regsUpTo, List.mem_map, List.mem_range]
  constructor
  · rintro ⟨k, hk, rfl⟩
    rw [BitVec.toNat_ofNat]; omega
  · intro h
    exact ⟨y.toNat, by omega, by rw [BitVec.ofNat_toNat, BitVec.setWidth_eq]⟩

/-- The fetch advance and a load of `V[0]` to `V[x]` change only `pc` and those registers (R175). -/
theorem frame_advance_writeRegs (s : State) (x : Nibble) {bs : List Byte} (h : bs.length = x.toNat + 1) :
    Frame (regsUpTo x) [.pc] [] s (s.advance.writeRegs 0 bs) := by
  have hx := x.isLt
  refine ⟨fun y hy => ?_, fun p hp => ?_, fun a _ => State.readByte_congr (by simp) a⟩
  · rw [mem_regsUpTo] at hy
    rw [readV_advance_writeRegs s bs y (by omega), dif_neg (by omega)]
  · cases p
    case pc => simp at hp
    all_goals simp [StatePart.same]

/-- Settles O31: register `y` gets byte `y` of the load. -/
theorem ldRegsLoadsRegisters : Obligations.LdRegsLoadsRegisters := by
  refine ⟨rowDecodes_ldRegs, fun s x => ⟨_, exec_ldRegs x s, fun y hy => ?_, by simp,
    frame_advance_writeRegs s x (by simp)⟩⟩
  have hx := x.isLt
  rw [readV_advance_writeRegs _ _ _ (by simp; omega), dif_pos (by simp; omega), State.readBytes_getElem]

end Sys2Proof.Machine
end

section
/-! # Keys and timers, and the host's actions on them

`Ex9E` and `ExA1` ask one key level and skip by it; `Fx18` loads the sound timer; `Fx0A` suspends and a key event
completes it (spec/44_keys_timers.md). `Tick`, `KeyEvent` and `Reset` act as spec/60_exceptions.md sections 2, 4 and 5
say. -/

namespace Sys2Proof.Machine

section Exec
variable (x : Nibble) (s : State)

theorem exec_skp : exec (.skp x) s = .next (s.countKey.jump
    (if Config.keyLevel s.keyDraws (lowNibble (s.readV x)) then s.pc + 4#16 else s.pc + 2#16)) :=
  congrArg _ (advance_skipIf_eq_jump s.countKey _)

theorem exec_sknp : exec (.sknp x) s = .next (s.countKey.jump
    (if Config.keyLevel s.keyDraws (lowNibble (s.readV x)) then s.pc + 2#16 else s.pc + 4#16)) := by
  refine (congrArg _ (advance_skipIf_eq_jump s.countKey _)).trans ?_
  rw [← ite_not]
  simp [State.isPressed]

theorem exec_ldStVx : exec (.ldStVx x) s = .next { s.advance with st := s.readV x } := rfl
theorem exec_ldVxK : exec (.ldVxK x) s = .next { s.advance with status := .waitKey x } := rfl

end Exec

/-- Asking a key level and a jump change only the model's count of questions and `pc`. -/
theorem frame_countKey_jump (s : State) (target : Word) : Frame [] [.pc, .keyDraws] [] s (s.countKey.jump target) := by
  refine frame_of_parts rfl rfl fun p hp => ?_
  cases p
  case pc | keyDraws => simp at hp
  all_goals rfl

/-- The fetch advance and a write of the sound timer change only `pc` and that timer (R9). -/
theorem frame_advance_st (s : State) (b : Byte) : Frame [] [.pc, .st] [] s { s.advance with st := b } := by
  refine frame_of_parts rfl rfl fun p hp => ?_
  cases p
  case pc | st => simp at hp
  all_goals rfl

/-- The fetch advance and the suspend change only `pc` and `status` (R193). -/
theorem frame_advance_status (s : State) (st : Status) :
    Frame [] [.pc, .status] [] s { s.advance with status := st } := by
  refine frame_of_parts rfl rfl fun p hp => ?_
  cases p
  case pc | status => simp at hp
  all_goals rfl

/-- Settles O32: one question is asked, of the key in the low nibble. -/
theorem keySkipsFollowTheLevel : Obligations.KeySkipsFollowTheLevel := by
  intro s x k hk
  obtain rfl : k = lowNibble (s.readV x) := BitVec.eq_of_toNat_eq (by rw [hk, toNat_lowNibble])
  constructor
  · exact ⟨_, exec_skp x s, rfl, frame_countKey_jump s _, rfl⟩
  · exact ⟨_, exec_sknp x s, rfl, frame_countKey_jump s _, rfl⟩

/-- The tone is on exactly while the sound timer is not 0 (R30). -/
theorem tone_iff (s : State) : s.tone = true ↔ s.st ≠ 0x00#8 := by
  rw [State.tone, decide_eq_true_iff, Nat.pos_iff_ne_zero, ne_eq, ne_eq, ← BitVec.toNat_inj]
  rfl

/-- Settles O34: one write of the sound timer, which the tone follows. -/
theorem soundTimerLoad : Obligations.SoundTimerLoad :=
  ⟨rowDecodes_ldStVx, fun s x => ⟨_, exec_ldStVx x s, rfl, tone_iff _, rfl, frame_advance_st s _⟩⟩

/-- A key event completes a wait: the key's number goes to the waiting register, the machine runs on, and nothing else
changes (R225). -/
theorem act_keyEvent_of_waitKey {s : State} {x : Nibble} (hs : s.status = .waitKey x) (k : Nibble) :
    ∃ u, s.act (.keyEvent k) = .next u ∧ u.status = .running ∧ (u.readV x).toNat = k.toNat ∧ u.pc = s.pc ∧
      Frame [x] [.status] [] s u := by
  have hkey : s.keyEvent k = { s.writeV x (k.zeroExtend 8) with status := .running } := by
    rw [State.keyEvent, hs]
  refine ⟨_, congrArg _ hkey, rfl, ?_, rfl, fun y hy => ?_, fun p hp => ?_, fun a _ => State.readByte_congr rfl a⟩
  · exact (congrArg _ (State.readV_writeV_same s x _)).trans (BitVec.toNat_setWidth_of_le (by decide))
  · exact State.readV_writeV_other (fun e => hy (by simp [e]))
  · cases p
    case status => simp at hp
    all_goals rfl

theorem StatePart.same_trans {s t u : State} {p : StatePart} (hst : StatePart.same s t p) (htu : StatePart.same t u p) :
    StatePart.same s u p := by
  cases p <;> exact Eq.trans htu hst

/-- Two changes of `pc`, `status` and registers, the second of which puts `status` back as it was. -/
theorem Frame.trans_status {regs : List Nibble} {s t u : State} (hst : Frame [] [.pc, .status] [] s t)
    (htu : Frame regs [.status] [] t u) (hstatus : u.status = s.status) : Frame regs [.pc] [] s u := by
  obtain ⟨hregs, hparts, hbytes⟩ := hst
  obtain ⟨hregs', hparts', hbytes'⟩ := htu
  refine ⟨fun y hy => (hregs' y hy).trans (hregs y (by simp)), fun p hp => ?_,
    fun a ha => (hbytes' a ha).trans (hbytes a ha)⟩
  by_cases h : p = .status
  · rw [h]; exact hstatus
  · exact StatePart.same_trans (hparts p (by simpa [h] using hp)) (hparts' p (by simp [h]))

/-- Settles O35: the suspend, and the key event that completes it. -/
theorem keyWaitSuspendsThenCompletes : Obligations.KeyWaitSuspendsThenCompletes := by
  intro s x k hs
  obtain ⟨u, hu, hstatus, hread, hpc, hframe⟩ :=
    act_keyEvent_of_waitKey (s := { s.advance with status := .waitKey x }) rfl k
  have hsuspend := frame_advance_status s (.waitKey x)
  exact ⟨_, u, exec_ldVxK x s, rfl, rfl, hsuspend, hu, hstatus, hread,
    hsuspend.trans_status hframe (hstatus.trans hs.symm), hpc⟩

/-- A timer above 0 counts down by one, a timer at 0 stays (R222). -/
theorem toNat_countDown (b : Byte) : (countDown b).toNat = b.toNat - 1 := by
  unfold countDown
  split <;> bv_omega

/-- A tick changes only the timers (R222). -/
theorem frame_tick (s : State) : Frame [] [.dt, .st] [] s s.tick := by
  refine frame_of_parts rfl rfl fun p hp => ?_
  cases p
  case dt | st => simp at hp
  all_goals rfl

/-- Settles O44: both timers count down. -/
theorem tickCountsTimersDown : Obligations.TickCountsTimersDown := fun s =>
  ⟨s.tick, rfl, toNat_countDown _, toNat_countDown _, frame_tick s⟩

/-- Settles O45: only WAIT_KEY has an arm that changes the state. -/
theorem keyEventDroppedUnlessWaiting : Obligations.KeyEventDroppedUnlessWaiting := by
  intro s k hs
  rcases keyEvent_cases s k with ⟨x, hx, -⟩ | ⟨-, hdropped⟩
  · exact absurd hx (hs x)
  · exact congrArg _ hdropped

/-- Settles O46. -/
theorem resetFromAnyState : Obligations.ResetFromAnyState := fun _ => rfl

/-- Settles O42: the hold, the tick, the reset and the completing key event. -/
theorem waitHoldsUntilKey : Obligations.WaitHoldsUntilKey := by
  intro s x hs
  refine ⟨cycle_of_held (by simp [hs]), ⟨_, rfl, frame_tick s⟩, ⟨_, rfl, rfl⟩, fun k => ?_⟩
  obtain ⟨u, hu, hstatus, hread, -, hframe⟩ := act_keyEvent_of_waitKey hs k
  exact ⟨u, hu, hstatus, hread, hframe⟩

/-- With nothing scheduled the driver reports a step of a failed machine as a fault with its record (R217). -/
theorem driverStep_of_failed {s : State} {e : ErrRecord} (hs : s.status = .failed e) (hidle : s.pending = []) :
    driverStep s = .fault (.failed e) := by
  have hstep : step s = .next s := by rw [step_of_idle hidle, cycle_of_held (by simp [hs])]
  simp only [driverStep, hstep, hs]

/-- Settles O43: the hold, the dropped key event, the tick, the reset and the driver's fault. -/
theorem failedAbsorbsUntilReset : Obligations.FailedAbsorbsUntilReset := fun s _ hs =>
  ⟨cycle_of_held (by simp [hs]), fun k => keyEventDroppedUnlessWaiting s k (by simp [hs]), ⟨_, rfl, frame_tick s⟩,
    ⟨_, rfl, rfl⟩, driverStep_of_failed hs⟩

end Sys2Proof.Machine
end

section
/-! # The whole machine: what each instruction may change

`exec_frame` says for every instruction which registers, parts and bytes it may change (spec/00_scope.md R9), once; the
statements about the storage spaces read it off. -/

namespace Sys2Proof.Machine

/-- The registers that a cycle of `i` may write (R21). -/
def writtenRegs : Instr → List Nibble
  | .ldImm x _ | .addImm x _ | .ldReg x _ | .or x _ | .and x _ | .xor x _ | .rnd x _ | .ldVxDt x => [x]
  | .addReg x _ | .sub x _ | .shr x _ | .subn x _ | .shl x _ => [x, 0xF#4]
  | .drw _ _ _ => [0xF#4]
  | .ldRegs x => regsUpTo x
  | _ => []

/-- The other parts of the state that a cycle of `i` may write; a failing call or return writes `status` alone. -/
def writtenParts : Instr → List StatePart
  | .cls | .drw _ _ _ => [.pc, .fb]
  | .ret => [.pc, .sp, .status]
  | .call _ => [.pc, .sp, .stack, .status]
  | .ldI _ | .addI _ | .ldF _ => [.pc, .i]
  | .rnd _ _ => [.pc, .randDraws]
  | .skp _ | .sknp _ => [.pc, .keyDraws]
  | .ldVxK _ => [.pc, .status]
  | .ldDtVx _ => [.pc, .dt]
  | .ldStVx _ => [.pc, .st]
  | _ => [.pc]

/-- The masked addresses of the bytes that a cycle of `i` from `s` may store. -/
def writtenBytes (s : State) : Instr → List Nat
  | .ldB _ => byteAddrs s.i.toNat 3
  | .stRegs x => byteAddrs s.i.toNat (x.toNat + 1)
  | _ => []

/-- A frame holds with more parts listed. -/
theorem Frame.mono_parts {regs : List Nibble} {parts parts' : List StatePart} {stored : List Nat} {s t : State}
    (h : Frame regs parts stored s t) (hsub : parts ⊆ parts') : Frame regs parts' stored s t :=
  ⟨h.1, fun p hp => h.2.1 p (mt (@hsub p) hp), h.2.2⟩

/-- A failure changes only `status` (R215). -/
theorem frame_raise (s : State) (kind : FailureKind) (w : Word) : Frame [] [.status] [] s (s.raise kind w) := by
  refine frame_of_parts rfl rfl fun p hp => ?_
  cases p
  case status => simp at hp
  all_goals rfl

/-- A return, whether it pops or fails, changes only `pc`, `SP` and `status` (R120, R212). -/
theorem frame_of_exec_ret {s t : State} (h : exec .ret s = .next t) : Frame [] [.pc, .sp, .status] [] s t := by
  rcases Nat.eq_zero_or_pos s.sp.val with hsp | hsp
  · rw [exec_ret_of_empty hsp] at h
    cases h
    exact (frame_raise s _ _).mono_parts (by simp)
  · rw [exec_ret_of_pos hsp] at h
    cases h
    exact (frame_drop_jump s _).mono_parts (by simp)

/-- A call, whether it pushes or fails, changes only `pc`, `SP`, the stack and `status` (R122, R211). -/
theorem frame_of_exec_call {nnn : Addr} {s t : State} (h : exec (.call nnn) s = .next t) :
    Frame [] [.pc, .sp, .stack, .status] [] s t := by
  rcases Nat.lt_or_ge s.sp.val 16 with hsp | hsp
  · rw [exec_call_of_room nnn hsp] at h
    cases h
    exact (frame_push_jump s _ _ hsp).mono_parts (by simp)
  · rw [exec_call_of_full nnn (by omega)] at h
    cases h
    exact (frame_raise s _ _).mono_parts (by simp)

/-- A cycle changes nothing but what its instruction may write (R9). -/
theorem exec_frame {i : Instr} {s t : State} (h : exec i s = .next t) :
    Frame (writtenRegs i) (writtenParts i) (writtenBytes s i) s t := by
  cases i
  case ret => exact frame_of_exec_ret h
  case call => exact frame_of_exec_call h
  case seImm => rw [exec_seImm] at h; cases h; exact frame_jump s _
  case sneImm => rw [exec_sneImm] at h; cases h; exact frame_jump s _
  case seReg => rw [exec_seReg] at h; cases h; exact frame_jump s _
  case sneReg => rw [exec_sneReg] at h; cases h; exact frame_jump s _
  case skp => rw [exec_skp] at h; cases h; exact frame_countKey_jump s _
  case sknp => rw [exec_sknp] at h; cases h; exact frame_countKey_jump s _
  all_goals cases h
  case cls => exact frame_advance_clearDisplay s
  case jp | jpV0 => exact frame_jump s _
  case ldImm | addImm | ldReg | or | and | xor | ldVxDt => exact frame_advance_writeV s _ _
  case addReg | sub | shr | subn | shl => exact frame_advance_writeResult s _ _ _
  case rnd => exact frame_advance_countRand_writeV s _ _
  case drw => exact frame_advance_takeDrawing s _
  case ldI | addI | ldF => exact frame_advance_setI s _
  case ldVxK => exact frame_advance_status s _
  case ldDtVx => exact frame_advance_dt s _
  case ldStVx => exact frame_advance_st s _
  case ldB => exact frame_advance_writeBytes s _ _
  case stRegs x => exact frame_advance_writeBytes_readRegs s x
  case ldRegs x => exact frame_advance_writeRegs s x (by simp [regCount])

section Changed
variable {i : Instr} {s t : State} (h : exec i s = .next t)
include h

/-- A register that a cycle changes is one that its instruction may write. -/
theorem mem_writtenRegs_of_exec {x : Nibble} (hx : t.readV x ≠ s.readV x) : x ∈ writtenRegs i :=
  by_contra fun hmem => hx ((exec_frame h).1 x hmem)

/-- A part that a cycle changes is one that its instruction may write. -/
theorem mem_writtenParts_of_exec {p : StatePart} (hp : ¬ StatePart.same s t p) : p ∈ writtenParts i :=
  by_contra fun hmem => hp ((exec_frame h).2.1 p hmem)

/-- A byte that a cycle changes is one that its instruction may store. -/
theorem mem_writtenBytes_of_exec {a : Nat} (ha : t.readByte a ≠ s.readByte a) : effAddr a ∈ writtenBytes s i :=
  by_contra fun hmem => ha ((exec_frame h).2.2 a hmem)

end Changed

/-- The instructions that may write `VF` are the flag writers and those that name it as their destination (R21). -/
theorem writesFlag_or_destIsVF {i : Instr} (h : 0xF#4 ∈ writtenRegs i) : writesFlag i ∨ destIsVF i := by
  cases i
  case addReg | sub | shr | subn | shl | drw => exact .inl trivial
  case ldImm | addImm | ldReg | or | and | xor | rnd | ldVxDt => exact .inr (List.mem_singleton.1 h).symm
  case ldRegs x =>
    have hx : 15 ≤ x.toNat := mem_regsUpTo.1 h
    exact .inr (BitVec.eq_of_toNat_eq (Nat.le_antisymm (Nat.le_of_lt_succ x.isLt) hx))
  all_goals cases h

/-- A flag is 0 or 1 (R21). -/
theorem flagByte_eq_zero_or_one (c : Bool) : flagByte c = 0x00#8 ∨ flagByte c = 0x01#8 := by
  cases c
  · exact .inl rfl
  · exact .inr rfl

/-- What a flag-writing instruction leaves in `VF` is a flag, whatever its destination is (R141, R106). -/
theorem exec_writesFlag {i : Instr} {s t : State} (h : exec i s = .next t) (hi : writesFlag i) :
    ∃ c, t.readV 0xF#4 = flagByte c := by
  cases i
  case addReg | sub | shr | subn | shl => cases h; exact ⟨_, State.readV_writeV_same ..⟩
  case drw => cases h; exact ⟨_, State.readV_writeV_same ..⟩
  all_goals cases hi

/-- Settles O50: only an instruction that may write `VF` changes it, and the six write a flag last. -/
theorem onlySixInstructionsWriteTheFlag : Obligations.OnlySixInstructionsWriteTheFlag := by
  intro i s t h
  refine ⟨fun hne => writesFlag_or_destIsVF (mem_writtenRegs_of_exec h hne), fun hi => ?_⟩
  obtain ⟨c, hc⟩ := exec_writesFlag h hi
  rw [hc]
  exact flagByte_eq_zero_or_one c

section Writers
variable {i : Instr}

theorem writer_of_stack (h : .stack ∈ writtenParts i) : ∃ nnn, i = .call nnn := by
  cases i <;> simp [writtenParts] at h ⊢

theorem writer_of_sp (h : .sp ∈ writtenParts i) : i = .ret ∨ ∃ nnn, i = .call nnn := by
  cases i <;> simp [writtenParts] at h ⊢

theorem writer_of_fb (h : .fb ∈ writtenParts i) : i = .cls ∨ ∃ x y n, i = .drw x y n := by
  cases i <;> simp [writtenParts] at h ⊢

theorem writer_of_byte {s : State} {a : Nat} (h : a ∈ writtenBytes s i) : ∃ x, i = .ldB x ∨ i = .stRegs x := by
  cases i <;> simp [writtenBytes] at h ⊢

theorem writer_of_i (h : .i ∈ writtenParts i) : (∃ nnn, i = .ldI nnn) ∨ ∃ x, i = .addI x ∨ i = .ldF x := by
  cases i <;> simp [writtenParts] at h ⊢

theorem writer_of_dt (h : .dt ∈ writtenParts i) : ∃ x, i = .ldDtVx x := by
  cases i <;> simp [writtenParts] at h ⊢

theorem writer_of_st (h : .st ∈ writtenParts i) : ∃ x, i = .ldStVx x := by
  cases i <;> simp [writtenParts] at h ⊢

end Writers

/-- Settles O51: what has changed, the instruction may write, and each part has its own writers. -/
theorem storageHasItsOwnInstructions : Obligations.StorageHasItsOwnInstructions := by
  intro i s t h
  have hpart {p : StatePart} (hp : ¬ StatePart.same s t p) := mem_writtenParts_of_exec h hp
  exact ⟨fun hne => writer_of_stack (hpart hne), fun hne => writer_of_sp (hpart hne),
    fun hne => writer_of_fb (hpart hne), fun ⟨_, hne⟩ => writer_of_byte (mem_writtenBytes_of_exec h hne),
    fun hne => writer_of_i (hpart hne), fun hne => writer_of_dt (hpart hne), fun hne => writer_of_st (hpart hne)⟩

/-- Settles O52: after the fetch advance the other instructions leave `pc` alone. -/
theorem onlyTenInstructionsWritePc : Obligations.OnlyTenInstructionsWritePc := by
  intro i s t h hi
  cases i
  case ret | jp | call | jpV0 | seImm | sneImm | seReg | sneReg | skp | sknp => exact absurd trivial hi
  all_goals cases h; simp

/-- Storing bytes and replacing the sound timer do not touch each other. -/
theorem writeBytes_withSt (s : State) (a : Nat) (bs : List Byte) (b : Byte) :
    { s with st := b }.writeBytes a bs = { s.writeBytes a bs with st := b } := by
  induction bs generalizing s a with
  | nil => rfl
  | cons c bs ih => exact ih (s.writeByte a c) (a + 1)

/-- Writing registers and replacing the sound timer do not touch each other. -/
theorem writeRegs_withSt (s : State) (k : Nat) (bs : List Byte) (b : Byte) :
    { s with st := b }.writeRegs k bs = { s.writeRegs k bs with st := b } := by
  induction bs generalizing s k with
  | nil => rfl
  | cons c bs ih => exact ih (s.writeV _ c) (k + 1)

/-- Every instruction but `Fx18`, which overwrites it, carries a replaced sound timer along (R27). -/
theorem exec_withSt {i : Instr} {s t : State} (b : Byte) (h : exec i s = .next t) (hi : ∀ x, i ≠ .ldStVx x) :
    exec i { s with st := b } = .next { t with st := b } := by
  cases i
  case ldStVx x => exact absurd rfl (hi x)
  case ret =>
    rcases Nat.eq_zero_or_pos s.sp.val with hsp | hsp
    · rw [exec_ret_of_empty hsp] at h
      cases h
      exact exec_ret_of_empty (s := { s with st := b }) hsp
    · rw [exec_ret_of_pos hsp] at h
      cases h
      exact exec_ret_of_pos (s := { s with st := b }) hsp
  case call nnn =>
    rcases Nat.lt_or_ge s.sp.val 16 with hsp | hsp
    · rw [exec_call_of_room nnn hsp] at h
      cases h
      exact exec_call_of_room (s := { s with st := b }) nnn hsp
    · have hfull : s.sp.val = 16 := by omega
      rw [exec_call_of_full nnn hfull] at h
      cases h
      exact exec_call_of_full (s := { s with st := b }) nnn hfull
  case seImm x kk => rw [exec_seImm] at h; cases h; exact exec_seImm x kk { s with st := b }
  case sneImm x kk => rw [exec_sneImm] at h; cases h; exact exec_sneImm x kk { s with st := b }
  case seReg x y => rw [exec_seReg] at h; cases h; exact exec_seReg x y { s with st := b }
  case sneReg x y => rw [exec_sneReg] at h; cases h; exact exec_sneReg x y { s with st := b }
  case skp x => rw [exec_skp] at h; cases h; exact exec_skp x { s with st := b }
  case sknp x => rw [exec_sknp] at h; cases h; exact exec_sknp x { s with st := b }
  all_goals cases h
  case ldB | stRegs => exact congrArg Host.Outcome.next (writeBytes_withSt s.advance _ _ b)
  case ldRegs => exact congrArg Host.Outcome.next (writeRegs_withSt s.advance _ _ b)
  all_goals rfl

/-- Settles O53: the replaced timer is carried along or overwritten. -/
theorem soundTimerIsNotRead : Obligations.SoundTimerIsNotRead := by
  intro i s t b h
  by_cases hi : ∃ x, i = .ldStVx x
  · obtain ⟨x, rfl⟩ := hi
    cases h
    exact ⟨_, exec_ldStVx x _, rfl⟩
  · exact ⟨_, exec_withSt b h (not_exists.1 hi), rfl⟩

/-- Every instruction answers a next state: a call or a return that fails, the one it raises (R215). -/
theorem exec_answers_next (i : Instr) (s : State) : ∃ t, exec i s = .next t := by
  cases i
  case ret =>
    rcases Nat.eq_zero_or_pos s.sp.val with hsp | hsp
    · exact ⟨_, exec_ret_of_empty hsp⟩
    · exact ⟨_, exec_ret_of_pos hsp⟩
  case call nnn =>
    rcases Nat.lt_or_ge s.sp.val 16 with hsp | hsp
    · exact ⟨_, exec_call_of_room nnn hsp⟩
    · exact ⟨_, execCall_of_full nnn (by omega)⟩
  all_goals exact ⟨_, rfl⟩

/-- Every cycle answers a next state: an instruction's, a failure or a hold (R71). -/
theorem cycle_answers_next (s : State) : ∃ t, s.cycle = .next t := by
  by_cases hs : s.status = .running
  · cases hd : decodeWord s.fetch with
    | ok i =>
      rw [cycle_of_decoded hs hd]
      exact exec_answers_next i _
    | error r => exact ⟨_, cycle_of_unknown hs hd⟩
  · exact ⟨s, cycle_of_held hs⟩

/-- Settles O49: a step with nothing scheduled is a cycle. -/
theorem everyInstructionAnswersNextState : Obligations.EveryInstructionAnswersNextState := by
  refine ⟨exec_answers_next, fun s hidle => ?_⟩
  rw [step_of_idle hidle]
  exact cycle_answers_next s

end Sys2Proof.Machine
end

section
/-! # Memory, the fetch, the step, failures, `Load` and the reset values

Byte access is masked (spec/20_memory.md section 1); the fetch reads two bytes big-endian (section 2). A cycle ends
FAILED only by one of three raises, each on the state before it (spec/60_exceptions.md sections 1 and 2). -/

namespace Sys2Proof.Machine

/-- A read depends on its address modulo 4096 only (R51). -/
theorem readByte_mod (s : State) (a : Nat) : s.readByte (a % 4096) = s.readByte a := by
  simp only [State.readByte, effAddr, Config.memSize, Nat.mod_mod]

/-- A store of one byte changes only the byte at its masked address (R52). -/
theorem frame_writeByte (s : State) (a : Nat) (b : Byte) : Frame [] [] [effAddr a] s (s.writeByte a b) := by
  refine ⟨fun _ _ => rfl, fun p _ => by cases p <;> rfl, fun c hc => ?_⟩
  exact State.readByte_writeByte_other (Ne.symm (by simpa using hc))

/-- Settles O36: the two store-then-read rules, at equal and at different masked addresses. -/
theorem byteStoreThenRead : Obligations.ByteStoreThenRead := by
  refine fun s a c b hs => ⟨?_, (readByte_mod s c).symm, frame_writeByte s a b⟩
  split
  · next h => exact State.readByte_writeByte_same hs h
  · next h => exact State.readByte_writeByte_other h

/-- Settles O37: the first byte is the high one, and both addresses are masked. -/
theorem fetchIsBigEndian : Obligations.FetchIsBigEndian := by
  intro s
  have hfetch : s.fetch.toNat = (s.readByte s.pc.toNat).toNat * 256 + (s.readByte (s.pc.toNat + 1)).toNat :=
    toNat_wordOfBytes ..
  refine ⟨hfetch, fun hpc => ?_⟩
  have hnext : (s.pc.toNat + 1) % 4096 = 0 := by omega
  rw [hfetch, ← readByte_mod s s.pc.toNat, hpc, ← readByte_mod s (s.pc.toNat + 1), hnext]

/-- A word placed where a canonical memory is fetched next is the word fetched (log 14). -/
theorem fetch_placeWord {s : State} (hs : s.memWf) (w : Word) : (s.placeWord w).fetch = w := by
  have hpc : (s.placeWord w).pc = s.pc := by simp [State.placeWord]
  have hhi : (s.placeWord w).readByte s.pc.toNat = hiByte w :=
    State.readByte_writeBytes_same (k := 0) (bs := [hiByte w, loByte w]) hs (by simp) (by simp)
  have hlo : (s.placeWord w).readByte (s.pc.toNat + 1) = loByte w :=
    State.readByte_writeBytes_same (k := 1) (bs := [hiByte w, loByte w]) hs (by simp) (by simp)
  rw [State.fetch, hpc, hhi, hlo, wordOfBytes_hiByte_loByte]

/-- A word's number in the table is the word (R74). -/
theorem tableWord_toNat (w : Word) : tableWord 16 w.toNat = w := by
  rw [tableWord, Nat.mod_eq_of_lt w.isLt, BitVec.ofNat_toNat, BitVec.setWidth_eq]

/-- Settles O38: the placed word is fetched, and it decodes to its instruction. -/
theorem placedInstructionRunsNext : Obligations.PlacedInstructionRunsNext := by
  intro s i hs
  rw [State.withFetchWord, tableWord_toNat, step_of_idle rfl]
  exact cycle_of_decoded rfl (by rw [fetch_placeWord hs, decodeWord_encodeWord])

/-- Settles O39: a cycle of a running machine is its decoded instruction, scheduled or not. -/
theorem stepRunsDecodedInstruction : Obligations.StepRunsDecodedInstruction := by
  refine ⟨fun s i hidle hs hi => ?_, fun s i rest hp hs hi => ?_, fun s a rest hp => step_of_pending hp⟩
  · rw [step_of_idle hidle]
    exact cycle_of_decoded hs hi
  · rw [step_of_pending hp]
    exact cycle_of_decoded (s := { s with pending := rest }) hs hi

/-- Settles O40: an unknown word raises; the reset machine fetches the unknown word 0x0000. -/
theorem unknownWordFails : Obligations.UnknownWordFails := by
  have hfails : ∀ (s : State) (r : Reject), s.pending = [] → s.status = .running → decodeWord s.fetch = .error r →
      step s = .next (s.closeLoad.raise .unknownOpcode s.fetch) := fun s r hidle hs hr => by
    rw [step_of_idle hidle, cycle_of_unknown hs hr]
  exact ⟨hfails, hfails State.reset (.unknownOpcode 0x0000#16) rfl rfl rfl⟩

/-- What a cycle may do to `status`: leave it, suspend, or raise, and then nothing else has changed (R193, R211,
R212). -/
theorem exec_status_cases {i : Instr} {s t : State} (h : exec i s = .next t) :
    t.status = s.status ∨ (∃ x, t.status = .waitKey x) ∨
    (i = .ret ∧ s.sp.val = 0 ∧ t = s.raise .stackUnderflow (encodeWord i)) ∨
    (∃ nnn, i = .call nnn ∧ s.sp.val = 16 ∧ t = s.raise .stackOverflow (encodeWord i)) := by
  by_cases hmem : .status ∈ writtenParts i
  · cases i
    case ret =>
      rcases Nat.eq_zero_or_pos s.sp.val with hsp | hsp
      · rw [exec_ret_of_empty hsp] at h
        cases h
        exact .inr (.inr (.inl ⟨rfl, hsp, rfl⟩))
      · rw [exec_ret_of_pos hsp] at h
        cases h
        exact .inl rfl
    case call nnn =>
      rcases Nat.lt_or_ge s.sp.val 16 with hsp | hsp
      · rw [exec_call_of_room nnn hsp] at h
        cases h
        exact .inl rfl
      · have hfull : s.sp.val = 16 := by omega
        rw [exec_call_of_full nnn hfull] at h
        cases h
        exact .inr (.inr (.inr ⟨nnn, rfl, hfull, by rw [encodeWord_call]⟩))
    case ldVxK x =>
      cases h
      exact .inr (.inl ⟨x, rfl⟩)
    all_goals simp [writtenParts] at hmem
  · exact .inl ((exec_frame h).2.1 _ hmem)

/-- No instruction touches the model's `loadable` (log 8). -/
theorem exec_loadable {i : Instr} {s t : State} (h : exec i s = .next t) : t.loadable = s.loadable :=
  (exec_frame h).2.1 .loadable (by cases i <;> simp [writtenParts])

/-- A cycle of a running machine that ends FAILED raises, and the record names the word fetched (R215). -/
theorem cycle_failed {s t : State} {e : ErrRecord} (hs : s.status = .running) (h : s.cycle = .next t)
    (he : t.status = .failed e) : ∃ kind, t = s.closeLoad.raise kind s.fetch := by
  rcases cycle_next_cases h with ⟨-, i, hi, hexec⟩ | ⟨-, -, ht⟩ | ⟨hne, -⟩
  · have hword := encodeWord_of_decodeWord hi
    rcases exec_status_cases hexec with hst | ⟨x, hst⟩ | ⟨-, -, ht⟩ | ⟨_, -, -, ht⟩
    · rw [State.closeLoad_status, hs, he] at hst
      cases hst
    · rw [he] at hst
      cases hst
    · exact ⟨_, hword ▸ ht⟩
    · exact ⟨_, hword ▸ ht⟩
  · exact ⟨_, ht⟩
  · exact absurd hs hne

/-- Settles O41: a failing cycle is a raise. -/
theorem failuresArePrecise : Obligations.FailuresArePrecise := by
  intro s t e hidle hs h he
  rw [step_of_idle hidle] at h
  obtain ⟨kind, rfl⟩ := cycle_failed hs h he
  cases he
  exact ⟨kind, rfl, rfl⟩

/-- Loading an image changes only the bytes at its masked addresses and the model's `loadable` (R252). -/
theorem frame_writeBytes_loadable (s : State) (a : Nat) (bs : List Byte) :
    Frame [] [.loadable] (byteAddrs a bs.length) s { s.writeBytes a bs with loadable := false } := by
  refine ⟨fun y _ => State.readV_writeBytes .., fun p hp => ?_, fun c hc => State.readByte_writeBytes_other hc⟩
  cases p
  case loadable => simp at hp
  all_goals simp [StatePart.same]

/-- Settles O48: the three branches of the load. -/
theorem loadWritesImageOrFails : Obligations.LoadWritesImageOrFails := by
  intro s image
  refine ⟨fun hl hn => ?_, fun hl hn => ?_, fun hl => ?_⟩
  · have hload : s.load image = .next { s.writeBytes 0x200 image with loadable := false } := by
      simp [State.load, hl, Image.wf, hn]
    refine ⟨_, hload, fun hs k hk => ?_, rfl, frame_writeBytes_loadable s 0x200 image⟩
    rw [List.getElem?_eq_getElem hk]
    exact congrArg some (State.readByte_writeBytes_same hs (by omega) hk).symm
  · have hwf : ¬ image.length ≤ 3584 := by omega
    simp [State.act, State.load, hl, Image.wf, hwf]
  · simp [State.act, State.load, hl]

/-- The font bytes stand at FONT_BASE (R35, R36). -/
theorem resetByte_font {k : Nat} (hk : k < Config.fontData.length) :
    Config.fontData[k]? = some (Memory.resetByte (Config.fontBase + k)) := by
  rw [Memory.resetByte, if_pos ⟨Nat.le_add_right .., by omega⟩, Nat.add_sub_cancel_left,
    List.getD_eq_getElem _ _ hk, List.getElem?_eq_getElem hk]

/-- Outside the font every byte is 0 at reset (R35). -/
theorem resetByte_outside_font {a : Nat} (h : a < Config.fontBase ∨ Config.fontBase + 80 ≤ a) :
    Memory.resetByte a = 0x00#8 := by
  have hlen : Config.fontData.length = 80 := rfl
  exact if_neg (by omega)

/-- The reset memory, which lists nothing, reads as its reset content (log 16). -/
theorem readByte_reset {a : Nat} (ha : a < 4096) : State.reset.readByte a = Memory.resetByte a := by
  rw [State.readByte, effAddr_of_lt ha]
  rfl

/-- Settles O47: each row of the table of R35. -/
theorem resetValuesOfTheSpec : Obligations.ResetValuesOfTheSpec := by
  have hbase : Config.fontBase = 0 := rfl
  have hlen : Config.fontData.length = 80 := rfl
  refine ⟨fun x => Vector.getElem_replicate .., rfl, rfl, fun k hk => ?_, rfl, rfl, rfl, rfl, rfl, fun k hk => ?_,
    fun a ha hout => ?_, fun x y => fbPixel_dark ..⟩
  · exact Vector.getElem?_replicate.trans (if_pos hk)
  · rw [readByte_reset (by omega)]
    exact resetByte_font (by omega)
  · rw [readByte_reset ha, resetByte_outside_font hout]

end Sys2Proof.Machine
end

section
/-! # The invariants: canonical memory and the error record

Both hold at reset and are kept by every step, whose cases are `step_next_cases` and `cycle_next_cases`. -/

namespace Sys2Proof.Machine

/-- Canonical memory depends on memory alone. -/
theorem State.memWf_congr {s t : State} (h : t.mem = s.mem) (hs : s.memWf) : t.memWf := by
  rw [State.memWf, h]; exact hs

/-- A cycle keeps memory canonical: it stores bytes or leaves memory alone (R71). -/
theorem memWf_of_cycle {s t : State} (hs : s.memWf) (h : s.cycle = .next t) : t.memWf := by
  rcases cycle_next_cases h with ⟨-, i, -, hexec⟩ | ⟨-, -, rfl⟩ | ⟨-, rfl⟩
  · rcases exec_mem_cases hexec with hmem | ⟨a, bs, hmem⟩
    · exact State.memWf_congr hmem hs
    · exact State.memWf_congr hmem (State.memWf_writeBytes (s := s.closeLoad) a bs hs)
  · exact hs
  · exact hs

/-- A load keeps memory canonical: it stores an image or leaves memory alone (R252). -/
theorem memWf_of_load {s t : State} {image : List Byte} (hs : s.memWf) (h : s.load image = .next t) : t.memWf := by
  obtain ⟨-, ⟨-, rfl⟩ | ⟨-, rfl⟩⟩ := load_next_cases h
  · exact State.memWf_congr rfl (State.memWf_writeBytes Config.programStart image hs)
  · exact hs

/-- A key event leaves memory alone (R225). -/
theorem mem_keyEvent (s : State) (k : Nibble) : (s.keyEvent k).mem = s.mem := by
  rcases keyEvent_cases s k with ⟨x, -, h⟩ | ⟨-, h⟩ <;> rw [h]
  rfl

/-- Settles O54: of the five actions only a cycle and a load store bytes, and `Reset` empties the list. -/
theorem stepKeepsMemoryCanonical : Obligations.StepKeepsMemoryCanonical := by
  intro s t hs h
  rcases step_next_cases h with ⟨-, hcycle⟩ | ⟨rest, -, hcycle⟩ | ⟨rest, -, rfl⟩ | ⟨k, rest, -, rfl⟩ | ⟨rest, -, rfl⟩ |
    ⟨image, rest, -, hload⟩
  · exact memWf_of_cycle hs hcycle
  · exact memWf_of_cycle (s := { s with pending := rest }) hs hcycle
  · exact hs
  · exact State.memWf_congr (mem_keyEvent _ k) hs
  · rfl
  · exact memWf_of_load (s := { s with pending := rest }) hs hload

/-- A running machine has no record to be false. -/
theorem State.errTrue_of_running {s : State} (h : s.status = .running) : s.errTrue := by
  rw [State.errTrue, h]; trivial

/-- A suspended machine's part of the invariant is that it admits no load (log 8). -/
theorem State.errTrue_of_waitKey {s : State} {x : Nibble} (h : s.status = .waitKey x) (hl : s.loadable = false) :
    s.errTrue := by
  rw [State.errTrue, h]; exact hl

/-- What makes the record of a failed cycle true in the state `s` (R211 to R213). -/
def FailureCause (s : State) : FailureKind → Prop
  | .stackOverflow => s.sp = 16 ∧ ∃ nnn, decodeWord s.fetch = .ok (.call nnn)
  | .stackUnderflow => s.sp = 0 ∧ decodeWord s.fetch = .ok .ret
  | .unknownOpcode => decodeWord s.fetch = .error (.unknownOpcode s.fetch)

/-- A raise that names the fetched word and whose cause holds leaves a true record (R215). -/
theorem errTrue_raise {s : State} {kind : FailureKind} (h : FailureCause s kind) :
    (s.closeLoad.raise kind s.fetch).errTrue := by
  cases kind <;> exact ⟨rfl, rfl, rfl, h⟩

/-- The record's truth rests on the parts that a tick leaves alone (R222). -/
theorem errTrue_tick {s : State} (h : s.errTrue) : s.tick.errTrue := h

/-- A true record with a load admitted: the machine runs (log 8). -/
theorem State.errTrue.running_of_loadable {s : State} (h : s.errTrue) (hl : s.loadable = true) :
    s.status = .running := by
  unfold State.errTrue at h
  split at h
  case h_1 hrun => exact hrun
  case h_2 | h_3 => simp [h] at hl
  case h_4 => simp [h.1] at hl

/-- A cycle keeps the record true: it runs on, suspends, raises for a cause that holds, or is a hold (R71, R215). -/
theorem errTrue_of_cycle {s t : State} (hs : s.errTrue) (h : s.cycle = .next t) : t.errTrue := by
  rcases cycle_next_cases h with ⟨hrun, i, hi, hexec⟩ | ⟨-, hunknown, rfl⟩ | ⟨-, rfl⟩
  · have hword := encodeWord_of_decodeWord hi
    rcases exec_status_cases hexec with hst | ⟨x, hst⟩ | ⟨rfl, hsp, rfl⟩ | ⟨nnn, rfl, hsp, rfl⟩
    · exact State.errTrue_of_running (hst.trans hrun)
    · exact State.errTrue_of_waitKey hst (exec_loadable hexec)
    · rw [hword]
      exact errTrue_raise (kind := .stackUnderflow) ⟨Fin.ext hsp, hi⟩
    · rw [hword]
      exact errTrue_raise (kind := .stackOverflow) ⟨Fin.ext hsp, nnn, hi⟩
  · exact errTrue_raise (kind := .unknownOpcode) hunknown
  · exact hs

/-- A key event keeps the record true: it ends a wait or is dropped (R225). -/
theorem errTrue_keyEvent {s : State} (hs : s.errTrue) (k : Nibble) : (s.keyEvent k).errTrue := by
  rcases keyEvent_cases s k with ⟨x, -, h⟩ | ⟨-, h⟩
  · exact State.errTrue_of_running (by rw [h])
  · rwa [h]

/-- A load keeps the record true: it is admitted to a running machine alone, which runs on or fails as too large. -/
theorem errTrue_of_load {s t : State} {image : List Byte} (hs : s.errTrue) (h : s.load image = .next t) :
    t.errTrue := by
  obtain ⟨hl, ⟨-, rfl⟩ | ⟨-, rfl⟩⟩ := load_next_cases h
  · exact State.errTrue_of_running ((State.writeBytes_status ..).trans (hs.running_of_loadable hl))
  · rfl

/-- Settles O55: the cycle and each of the host's actions keep the record true. -/
theorem stepKeepsErrorRecordTrue : Obligations.StepKeepsErrorRecordTrue := by
  intro s t hs h
  rcases step_next_cases h with ⟨-, hcycle⟩ | ⟨rest, -, hcycle⟩ | ⟨rest, -, rfl⟩ | ⟨k, rest, -, rfl⟩ | ⟨rest, -, rfl⟩ |
    ⟨image, rest, -, hload⟩
  · exact errTrue_of_cycle hs hcycle
  · exact errTrue_of_cycle (s := { s with pending := rest }) hs hcycle
  · exact errTrue_tick (s := { s with pending := rest }) hs
  · exact errTrue_keyEvent (s := { s with pending := rest }) hs k
  · exact State.errTrue_of_running rfl
  · exact errTrue_of_load (s := { s with pending := rest }) hs hload

/-- Settles O56: nothing is listed, and the machine runs. -/
theorem resetHasTheInvariants : Obligations.ResetHasTheInvariants := ⟨rfl, State.errTrue_of_running rfl⟩

end Sys2Proof.Machine
end
